-- ==== Sys2Proof/Word.lean ====
section
/-! DEFINITION. The word types of the DES core: bytes, blocks, halves, subkeys (00_scope.md R7).
A bit sequence `s` of length `n` (R10) is a `BitVec n`: position 1 is the most significant bit, so `uint(s)`
(R11) is `s.toNat` and `s ‖ t` is `s ++ t`. -/

namespace Sys2Proof

/-- A byte, an integer 0..255 (R12). -/
abbrev Byte := BitVec 8

/-- An 8-byte block, key, IV or chaining value, held as the 64-bit sequence `BytesToBits` of its bytes
(R12, 20_memory.md R45): byte 0 is the most significant byte. Exclusive-or of blocks is the bytewise one (R12). -/
abbrev Block := BitVec 64

/-- A half `L` or `R` of a block transform (10_state.md R26). -/
abbrev Half := BitVec 32

/-- A half `C` or `D` of the key schedule (10_state.md R26). -/
abbrev KeyHalf := BitVec 28

/-- One RoundSubkey (10_state.md R21). -/
abbrev Subkey := BitVec 48

/-- The subkey file `K[1..16]` (10_state.md R21); register `K[n]` stands at index `n - 1`. -/
abbrev SubkeyFile := Vector Subkey 16

end Sys2Proof
end

