-- ==== Sys2Proof/Machine/Bits.lean ====
section
/-! DEFINITION. Bit and byte sequences (00_scope.md R10 to R12, 20_memory.md R45) and the permutation engine
(40_permutation_engine.md R80). -/

namespace Sys2Proof.Machine

/-- `s[p]`, positions counted from 1, position 1 the most significant bit (00_scope.md R10, R11). -/
def bitAt {w : Nat} (s : BitVec w) (p : Nat) : Bool := s.getMsbD (p - 1)

/-- `s[a .. a+n-1]`, `n` bits from position `a` on (00_scope.md R10). -/
def slice {w : Nat} (s : BitVec w) (a n : Nat) : BitVec n := s.extractLsb' (w + 1 - (a + n)) n

/-- The number a byte sequence is in base 256, byte 0 first. -/
def bytesToNat (B : List Byte) : Nat := B.foldl (fun acc b => 256 * acc + b.toNat) 0

/-- `BytesToBits(B)`: byte 0 first, in each byte the most significant bit first (00_scope.md R12). -/
def bytesToBits (B : List Byte) : BitVec (8 * B.length) := BitVec.ofNat _ (bytesToNat B)

/-- `BitsToBytes(s)` of a sequence of `m` bytes' length (00_scope.md R12). -/
def bitsToBytes {m : Nat} (s : BitVec (8 * m)) : List Byte :=
  (List.range m).map fun k => slice s (8 * k + 1) 8

/-- An 8-byte sequence as a block (00_scope.md R12, 20_memory.md R45). -/
def toBlock (B : List Byte) : Block := (bytesToBits B).setWidth 64

/-- The eight bytes of a block (00_scope.md R12, 20_memory.md R45). -/
def blockBytes (b : Block) : List Byte := bitsToBytes (m := 8) b

/-- The blocks `M_0 .. M_{N-1}` of a sequence of `8N` bytes, `M_i = M[8i .. 8i+7]` (44_chaining_padding.md R160). -/
def blocksOf : List Byte → List Block
  | b0 :: b1 :: b2 :: b3 :: b4 :: b5 :: b6 :: b7 :: rest =>
      toBlock [b0, b1, b2, b3, b4, b5, b6, b7] :: blocksOf rest
  | _ => []

/-- The byte sequence `c_0 ‖ c_1 ‖ ... ` of a list of blocks. -/
def bytesOf (bs : List Block) : List Byte := bs.flatMap blockBytes

/-- `PERMUTE(T, s)`: `o[i] = s[T[i]]` for `i = 1..m` (40_permutation_engine.md R80). For an entry outside `1..w` the
spec gives no behaviour; no table of the core has one (R82, log entry 15). -/
def permute {m w : Nat} (T : Vector Nat m) (s : BitVec w) : BitVec m :=
  BitVec.ofNat m (T.toList.foldl (fun acc t => 2 * acc + (bitAt s t).toNat) 0)

end Sys2Proof.Machine
end

