-- ==== Sys2Proof/Config.lean ====
section
/-! DEFINITION. What an implementation fixes and the free values of the DES core.
The fourteen tables and the value of `UNPAD_ZERO` are configuration too (00_scope.md R8, R9); they stand in
Machine/Constants.lean. `MAXLEN` is unbounded and `NCTX` is 1 (R9), so neither needs a constant (log entry 11). -/

namespace Sys2Proof.Config

/-- The two values of the parameter `UNPAD_ZERO` (00_scope.md R9, 44_chaining_padding.md R170): what unpadding
does when the last byte is 0. -/
inductive UnpadZero where
  | keep    -- nothing is stripped, the default
  | empty   -- everything is stripped
  deriving DecidableEq, Repr

/-- FREE VALUE, no body: byte `i` of a buffer whose unlisted bytes come from free draw number `fill`. The spec
leaves these bytes unspecified (10_state.md R31, 20_memory.md R43, U4, U6); log entries 4, 5 and 7. -/
opaque freeByte (fill i : Nat) : Byte

/-- FREE VALUE, no body: what `IVR` holds after a successful CONSTRUCT in mode ECB (10_state.md R23, U5), for
free draw number `draw`; log entries 6 and 7. -/
opaque freeBlock (draw : Nat) : Block

end Sys2Proof.Config
end

