-- ==== Sys2Proof/Syntax.lean ====
section
/-! DEFINITION. The commands of the DES core and the fields of a command word (30_encoding.md R60 to R64). -/

namespace Sys2Proof

/-- The chaining modes, `CFG.MODE` and `CMD.MODE` (10_state.md R22, 30_encoding.md R61). -/
inductive Mode where
  | ecb
  | cbc
  deriving DecidableEq, Repr

/-- The paddings, `CFG.PAD` and `CMD.PAD` (10_state.md R22, 30_encoding.md R61). -/
inductive Padding where
  | none
  | pkcs5
  deriving DecidableEq, Repr

/-- The commands: one constructor per row of spec/opcode_table.json (30_encoding.md R62, R63, R64). -/
inductive Instr where
  | construct (mode : Mode) (pad : Padding)
  | encrypt
  | decrypt
  deriving DecidableEq, Repr

/-- The four fields of format `CMDW` (30_encoding.md R61), with no check that they make a legal word. -/
structure CmdFields where
  rsv : BitVec 4
  pad : BitVec 1
  mode : BitVec 1
  op : BitVec 2
  deriving DecidableEq, Repr

/-- The one-bit code of a mode: 0 ECB, 1 CBC (30_encoding.md R61, 10_state.md R22). -/
def Mode.bit : Mode → BitVec 1
  | .ecb => 0#1
  | .cbc => 1#1

/-- The one-bit code of a padding: 0 None, 1 PKCS5 (30_encoding.md R61, 10_state.md R22). -/
def Padding.bit : Padding → BitVec 1
  | .none => 0#1
  | .pkcs5 => 1#1

/-- The direction of a block transform (41_key_schedule.md R108). -/
inductive Dir where
  | enc
  | dec
  deriving DecidableEq, Repr

/-- The four operand buffers `KEYBUF`, `IVBUF`, `IN`, `OUT` (10_state.md R28). -/
inductive BufId where
  | key
  | iv
  | inp
  | out
  deriving DecidableEq, Repr

end Sys2Proof
end

