-- ==== Sys2Proof/Machine/KeySchedule.lean ====
section
/-! DEFINITION. The key schedule: PC1SPLIT, ROTL28, SHIFT, SUBKEY, KEYSCHED, KSEL (41_key_schedule.md). -/

namespace Sys2Proof.Machine

/-- `PC1SPLIT(key)`: `(C_0, D_0)` (41_key_schedule.md R101). -/
def pc1Split (key : Block) : KeyHalf × KeyHalf :=
  let cd := permute tablePC1 key
  (slice cd 1 28, slice cd 29 28)

/-- `ROTL28(x, s)`: `x[s+1..28] ‖ x[1..s]` (41_key_schedule.md R103). -/
def rotl28 (x : KeyHalf) (s : Nat) : KeyHalf := (x <<< s) ||| (x >>> (28 - s))

/-- `SHIFT(n)`: 1 bit for rounds 1, 2, 9, 16, otherwise 2 (41_key_schedule.md R104). -/
def shiftAmount (n : Nat) : Nat :=
  if n = 1 ∨ n = 2 ∨ n = 9 ∨ n = 16 then 1 else 2

/-- `SUBKEY(c, d) = PERMUTE(PC2, c ‖ d)` (41_key_schedule.md R105). -/
def subkeyOf (c d : KeyHalf) : Subkey := permute tablePC2 (c ++ d)

/-- The transients `(C_n, D_n)` of the key schedule (41_key_schedule.md R106, 10_state.md R26). -/
def keyHalvesAfter (key : Block) : Nat → KeyHalf × KeyHalf
  | 0 => pc1Split key
  | n + 1 =>
    let cd := keyHalvesAfter key n
    (rotl28 cd.1 (shiftAmount (n + 1)), rotl28 cd.2 (shiftAmount (n + 1)))

/-- `K_n`, made from `C_n`, `D_n` (41_key_schedule.md R106). -/
def roundSubkey (key : Block) (n : Nat) : Subkey :=
  let cd := keyHalvesAfter key n
  subkeyOf cd.1 cd.2

/-- `KEYSCHED(key)`: the sixteen subkey registers `K[1..16]` (41_key_schedule.md R106). Irreducible, so
that no unification ever runs it; a proof unfolds it by name. -/
@[irreducible] def keySched (key : Block) : SubkeyFile := Vector.ofFn fun i : Fin 16 => roundSubkey key (i.val + 1)

/-- `KSEL(dir, n)`: the subkey register that round `n` reads (41_key_schedule.md R108). -/
def ksel (dir : Dir) (n : Nat) : Nat :=
  match dir with
  | .enc => n
  | .dec => 17 - n

/-- The read `K[n]`, `1 ≤ n ≤ 16` (00_scope.md R14, 10_state.md R21). There is no other register and no rule reads
one; the out-of-range case only makes the function total. -/
def subkeyReg (K : SubkeyFile) (n : Nat) : Subkey :=
  if h : 1 ≤ n ∧ n ≤ 16 then K[n - 1]'(by omega) else 0#48

end Sys2Proof.Machine
end

