-- ==== Sys2Proof/Machine/RoundFunction.lean ====
section
/-! DEFINITION. The round function f: EXPAND, KEYMIX, SBOX, SUBST, PPERM, F (42_round_function.md). -/

namespace Sys2Proof.Machine

/-- `EXPAND(r) = PERMUTE(E, r)` (42_round_function.md R121). -/
def expand (r : Half) : BitVec 48 := permute tableE r

/-- `KEYMIX(x, k) = x xor k` (42_round_function.md R122). -/
def keyMix (x : BitVec 48) (k : Subkey) : BitVec 48 := x ^^^ k

/-- The row of a 6-bit group, `2·g[1] + g[6]` (42_round_function.md R123). -/
def sboxRow (g : BitVec 6) : Nat := 2 * (bitAt g 1).toNat + (bitAt g 6).toNat

/-- The column of a 6-bit group, `8·g[2] + 4·g[3] + 2·g[4] + g[5]` (42_round_function.md R123). -/
def sboxCol (g : BitVec 6) : Nat :=
  8 * (bitAt g 2).toNat + 4 * (bitAt g 3).toNat + 2 * (bitAt g 4).toNat + (bitAt g 5).toNat

/-- `SBOX(j + 1, g) = bits_4(S[16·row + col])` (42_round_function.md R123). -/
def sbox (j : Fin 8) (g : BitVec 6) : BitVec 4 :=
  BitVec.ofNat 4 ((sboxTable j).toList.getD (16 * sboxRow g + sboxCol g) 0)

/-- `SUBST(y)`: group `j` of six bits through S-box `j`, `z_1 ‖ ... ‖ z_8` (42_round_function.md R124). -/
def subst (y : BitVec 48) : Half :=
  sbox 0 (slice y 1 6) ++ sbox 1 (slice y 7 6) ++ sbox 2 (slice y 13 6) ++ sbox 3 (slice y 19 6) ++
    sbox 4 (slice y 25 6) ++ sbox 5 (slice y 31 6) ++ sbox 6 (slice y 37 6) ++ sbox 7 (slice y 43 6)

/-- `PPERM(z) = PERMUTE(P, z)` (42_round_function.md R126). -/
def pPerm (z : Half) : Half := permute tableP z

/-- `F(r, k) = PPERM(SUBST(KEYMIX(EXPAND(r), k)))` (42_round_function.md R127). -/
def roundF (r : Half) (k : Subkey) : Half := pPerm (subst (keyMix (expand r) k))

end Sys2Proof.Machine
end

