-- ==== Sys2Proof/Machine/BlockTransform.lean ====
section
/-! DEFINITION. The block transform: IPERM, ROUND, PREOUT, FPERM, BLOCK_ENC, BLOCK_DEC (43_block_transform.md). -/

namespace Sys2Proof.Machine

/-- `IPERM(b)`: `(L_0, R_0)` (43_block_transform.md R141). -/
def iPerm (b : Block) : Half × Half :=
  let v := permute tableIP b
  (slice v 1 32, slice v 33 32)

/-- `ROUND(l, r, k)`: both results from the old halves (43_block_transform.md R142). -/
def feistelRound (lr : Half × Half) (k : Subkey) : Half × Half := (lr.2, lr.1 ^^^ roundF lr.2 k)

/-- `PREOUT(l, r) = r ‖ l`, right half first (43_block_transform.md R143). -/
def preOut (lr : Half × Half) : Block := lr.2 ++ lr.1

/-- `FPERM(v)` (43_block_transform.md R144). -/
def fPerm (v : Block) : Block := permute tableFP v

/-- The transients `(L_n, R_n)` of a block transform (43_block_transform.md R145, R146, 10_state.md R26). -/
def halvesAfter (K : SubkeyFile) (dir : Dir) (b : Block) : Nat → Half × Half
  | 0 => iPerm b
  | n + 1 => feistelRound (halvesAfter K dir b n) (subkeyReg K (ksel dir (n + 1)))

/-- The block transform in either direction: the same datapath, only the subkey order differs
(43_block_transform.md R145, R146). Irreducible, so that no unification ever runs it; a proof unfolds it by name. -/
@[irreducible] def blockTransform (K : SubkeyFile) (dir : Dir) (b : Block) : Block :=
  fPerm (preOut (halvesAfter K dir b 16))

/-- `BLOCK_ENC(b)` (43_block_transform.md R145). -/
def blockEnc (K : SubkeyFile) (b : Block) : Block := blockTransform K .enc b

/-- `BLOCK_DEC(b)` (43_block_transform.md R146). -/
def blockDec (K : SubkeyFile) (b : Block) : Block := blockTransform K .dec b

end Sys2Proof.Machine
end

