-- ==== Sys2Proof/Machine/Chaining.lean ====
section
/-! DEFINITION. Padding and chaining: PAD, UNPAD, ECB_ENC, ECB_DEC, CBC_ENC, CBC_DEC (44_chaining_padding.md). -/

namespace Sys2Proof.Machine

/-- The pad length `8 − (len mod 8)` (44_chaining_padding.md R162). -/
def padLength (len : Nat) : Nat := 8 - len % 8

/-- `PAD(m)` (44_chaining_padding.md R162). -/
def padMessage (m : List Byte) : List Byte :=
  m ++ List.replicate (padLength m.length) (BitVec.ofNat 8 (padLength m.length))

/-- `UNPAD(m)` with the parameter `UNPAD_ZERO = z`: the last byte is the pad count, and that many bytes are
stripped with no verification (44_chaining_padding.md R169 to R171). `none` for the empty sequence, to which the
spec gives no outcome (R172). -/
def unpadMessage (z : Config.UnpadZero) (m : List Byte) : Option (List Byte) :=
  match m.getLast? with
  | none => none
  | some n =>
    if n.toNat = 0 then
      match z with
      | .keep => some m
      | .empty => some []
    else if n.toNat ≤ m.length then some (m.take (m.length - n.toNat))
    else some []

/-- The blocks of `CBC_ENC` from chaining value `cv` on: `c_i = BLOCK_ENC(m_i xor CV)`, `CV <- c_i`
(44_chaining_padding.md R165). `cv` is the transient `CV` (10_state.md R25). -/
def cbcEncBlocks (K : SubkeyFile) (cv : Block) : List Block → List Block
  | [] => []
  | m :: ms =>
    let c := blockEnc K (m ^^^ cv)
    c :: cbcEncBlocks K c ms

/-- The blocks of `CBC_DEC` from chaining value `cv` on: `m_i = BLOCK_DEC(c_i) xor CV`, `CV <- c_i`, the ciphertext
block just consumed (44_chaining_padding.md R168, R180). -/
def cbcDecBlocks (K : SubkeyFile) (cv : Block) : List Block → List Block
  | [] => []
  | c :: cs => (blockDec K c ^^^ cv) :: cbcDecBlocks K c cs

/-- `ECB_ENC(m)` (44_chaining_padding.md R164). -/
def ecbEnc (K : SubkeyFile) (m : List Byte) : List Byte := bytesOf ((blocksOf m).map (blockEnc K))

/-- `ECB_DEC(c)` (44_chaining_padding.md R167). -/
def ecbDec (K : SubkeyFile) (c : List Byte) : List Byte := bytesOf ((blocksOf c).map (blockDec K))

/-- `CBC_ENC(m)`: `CV` starts from the IV (44_chaining_padding.md R165, R173). -/
def cbcEnc (K : SubkeyFile) (iv : Block) (m : List Byte) : List Byte := bytesOf (cbcEncBlocks K iv (blocksOf m))

/-- `CBC_DEC(c)`: `CV` starts from the IV (44_chaining_padding.md R168, R173). -/
def cbcDec (K : SubkeyFile) (iv : Block) (c : List Byte) : List Byte := bytesOf (cbcDecBlocks K iv (blocksOf c))

/-- The chaining of ENCRYPT, chosen by `CFG.MODE` (44_chaining_padding.md R163). -/
def chainEnc (mode : Mode) (K : SubkeyFile) (iv : Block) (m : List Byte) : List Byte :=
  match mode with
  | .ecb => ecbEnc K m
  | .cbc => cbcEnc K iv m

/-- The chaining of DECRYPT, chosen by `CFG.MODE` (44_chaining_padding.md R166). -/
def chainDec (mode : Mode) (K : SubkeyFile) (iv : Block) (c : List Byte) : List Byte :=
  match mode with
  | .ecb => ecbDec K c
  | .cbc => cbcDec K iv c

/-- The message ENCRYPT chains: padded when `CFG.PAD = PKCS5` (44_chaining_padding.md R163). -/
def padFor (pad : Padding) (m : List Byte) : List Byte :=
  match pad with
  | .none => m
  | .pkcs5 => padMessage m

/-- What DECRYPT delivers of the chained data: unpadded when `CFG.PAD = PKCS5`, `none` where the spec gives no
outcome (44_chaining_padding.md R166, R172). -/
def unpadFor (z : Config.UnpadZero) (pad : Padding) (m : List Byte) : Option (List Byte) :=
  match pad with
  | .none => some m
  | .pkcs5 => unpadMessage z m

end Sys2Proof.Machine
end

