-- ==== Sys2Proof/Machine/State.lean ====
section
/-! DEFINITION. The state of the DES core (10_state.md R20 to R31), its stops, and the state after reset. -/

namespace Sys2Proof.Machine

/-- The outcome codes of a command, the values of `STATUS` (10_state.md R24, 60_exceptions.md R200). Codes 6 and
7 are never produced, so they are no values here (U12, log entry 16). -/
inductive Status where
  | ok
  | invalidKeyLength
  | invalidIVLength
  | invalidBlockLength
  | notConstructed
  | illegalCommand
  deriving DecidableEq, Repr

/-- `CFG` (10_state.md R22). -/
structure Cfg where
  valid : Bool
  mode : Mode
  pad : Padding
  deriving DecidableEq, Repr

/-- The bytes of one buffer that something has written: (index, byte) pairs. Canonical form: indexes strictly
rising. An unlisted index has no byte of its own here, so no entry can equal one (log entry 4). -/
abbrev Memory := List Host.Cell

/-- One operand buffer with its length register (10_state.md R28, 20_memory.md R40). `fill` is the model's own
field: the number of the free draw that the unlisted bytes are (log entries 4, 5, 7). -/
structure Buffer where
  cells : Memory
  len : Nat
  fill : Nat
  deriving DecidableEq, Repr

/-- The state of the core (10_state.md R20). The transients `CV`, `C`, `D`, `L`, `R`, `i`, `n` are local values of
the operations, as R25, R26, U7 and 90_conflicts.md C2 ask (log entry 1). `draws` is the model's own field: the
number of the next free value (log entry 7). -/
structure State where
  k : SubkeyFile
  cfg : Cfg
  ivr : Block
  status : Status
  cmd : Byte
  keyBuf : Buffer
  ivBuf : Buffer
  inBuf : Buffer
  outBuf : Buffer
  draws : Nat
  deriving DecidableEq, Repr

/-- The faults of the model. -/
inductive Fault where
  /-- Raised by `memRead` for a read with `off + n > LEN`. The spec says it does not occur and gives it no rule
  (20_memory.md R42); no command reaches it. Safe: the machine stops where the spec gives no effect. -/
  | outsideBuffer (buf : BufId)
  deriving DecidableEq, Repr

/-- The refusals of the model. -/
inductive Refusal where
  /-- Raised by DECRYPT with `PAD = PKCS5` and `INLEN = 0`: "This spec gives the case no outcome"
  (44_chaining_padding.md R172, `UNPAD_EMPTY` is `OPEN`). Safe: nothing is claimed of a run that issues it. -/
  | unpadEmpty
  /-- Raised by an arm of `exec` whose command has no meaning yet; no arm does. Safe: the machine stops. -/
  | notModelled (mnemonic : String)
  deriving DecidableEq, Repr

/-- The state after reset: `VALID = 0`, `STATUS = Ok`, `OUTLEN = 0` (10_state.md R31, 70_reset_and_hazards.md
R230). The spec gives no other value and says of the rest that a model "must not pick zero" (R31), so the values named
here are none of them zero: `K`, `MODE`, `PAD`, `IVR` are log entry 2, `CMD` and the length registers log entry 3; the
buffers' bytes are free, log entry 4; `fill` and `draws` are log entry 7 (all DESIGN CHOICE). -/
def State.reset : State where
  k := Vector.replicate 16 0xA5A5A5A5A5A5#48
  cfg := ⟨false, .cbc, .pkcs5⟩
  ivr := 0xA5A5A5A5A5A5A5A5#64
  status := .ok
  cmd := 0xFF#8
  keyBuf := ⟨[], 1, 0⟩
  ivBuf := ⟨[], 1, 1⟩
  inBuf := ⟨[], 1, 2⟩
  outBuf := ⟨[], 0, 3⟩
  draws := 4

end Sys2Proof.Machine
end

