-- ==== Sys2Proof/Machine/Flags.lean ====
section
/-! DEFINITION. `STATUS`, the core's only flag: its codes and the tests, in order, that decide which error a
command reports (10_state.md R24, 60_exceptions.md R200 to R207). -/

namespace Sys2Proof.Machine

/-- The three bits of `STATUS` (10_state.md R24, 60_exceptions.md R200). -/
def Status.code : Status → BitVec 3
  | .ok => 0#3
  | .invalidKeyLength => 1#3
  | .invalidIVLength => 2#3
  | .invalidBlockLength => 3#3
  | .notConstructed => 4#3
  | .illegalCommand => 5#3

/-- The three bits of `CFG`: `VALID` is bit 0, `MODE` bit 1, `PAD` bit 2 (10_state.md R22). -/
def Cfg.word (c : Cfg) : BitVec 3 := c.pad.bit ++ c.mode.bit ++ BitVec.ofBool c.valid

/-- The tests of CONSTRUCT: the key's length, then the IV's length under CBC (60_exceptions.md R201, R202, R207). -/
def constructError (mode : Mode) (keyLen ivLen : Nat) : Option Status :=
  if keyLen ≠ 8 then some .invalidKeyLength
  else if mode = .cbc ∧ ivLen ≠ 8 then some .invalidIVLength
  else none

/-- The first test of ENCRYPT and DECRYPT: an instance exists (60_exceptions.md R205, R207). -/
def instanceError (cfg : Cfg) : Option Status :=
  if cfg.valid = false then some .notConstructed else none

/-- The length test: of ENCRYPT on the message after padding, of DECRYPT on the ciphertext whatever the padding
(60_exceptions.md R203, R207). -/
def lengthError (len : Nat) : Option Status :=
  if len % 8 ≠ 0 then some .invalidBlockLength else none

end Sys2Proof.Machine
end

