-- ==== Sys2Proof/WellFormed.lean ====
section
/-! DEFINITION. What makes a command word legal (30_encoding.md R61, R66) and a table well formed
(40_permutation_engine.md R82, 42_round_function.md R125, U9). -/

namespace Sys2Proof

/-- The reserved bits `CMD[7:4]` are 0 (30_encoding.md R61, R66). -/
def CmdFields.reservedClear (f : CmdFields) : Bool := f.rsv == 0#4

/-- `OP` is not the reserved value 3 (30_encoding.md R61, R66). -/
def CmdFields.opKnown (f : CmdFields) : Bool := f.op != 3#2

/-- `MODE` and `PAD` are 0 unless the command is CONSTRUCT (30_encoding.md R61, R66). -/
def CmdFields.optionsAllowed (f : CmdFields) : Bool :=
  f.op == 0#2 || (f.mode == 0#1 && f.pad == 0#1)

/-- A legal command word (30_encoding.md R66). -/
def CmdFields.wf (f : CmdFields) : Bool :=
  f.reservedClear && f.opKnown && f.optionsAllowed

/-- The fields of a command (30_encoding.md R62, R63, R64). -/
def Instr.fields : Instr → CmdFields
  | .construct mode pad => ⟨0#4, pad.bit, mode.bit, 0#2⟩
  | .encrypt => ⟨0#4, 0#1, 0#1, 1#2⟩
  | .decrypt => ⟨0#4, 0#1, 0#1, 2#2⟩

/-- A command is well formed when its fields make a legal word. -/
def Instr.wf (i : Instr) : Bool := i.fields.wf

/-- A permutation table over `w` input bits: every entry is a position `1..w` (40_permutation_engine.md R82). -/
def permTableWf {m : Nat} (w : Nat) (T : Vector Nat m) : Bool :=
  T.toList.all fun t => decide (1 ≤ t ∧ t ≤ w)

/-- An S-box: 64 entries of 4 bits (30_encoding.md R70, 42_round_function.md R125). -/
def sboxWf (S : Vector Nat 64) : Bool :=
  S.toList.all fun v => decide (v < 16)

end Sys2Proof
end

