-- ==== Sys2Proof/Decode.lean ====
section
/-! DEFINITION. Decoding and encoding of command words (30_encoding.md R60 to R66). -/

namespace Sys2Proof

/-- Why a word is none of the six legal ones (30_encoding.md R66). -/
inductive DecodeError where
  | reservedBits   -- `RSV ≠ 0`
  | reservedOp     -- `OP = 3`
  | optionBits     -- ENCRYPT or DECRYPT with `MODE` or `PAD` set
  deriving DecidableEq, Repr

/-- The fields of a command word: `RSV = CMD[7:4]`, `PAD = CMD[3:3]`, `MODE = CMD[2:2]`, `OP = CMD[1:0]`
(30_encoding.md R61). -/
def fieldsOf (w : Byte) : CmdFields :=
  ⟨w.extractLsb' 4 4, w.extractLsb' 3 1, w.extractLsb' 2 1, w.extractLsb' 0 2⟩

/-- The mode a code names (30_encoding.md R61). -/
def modeOfBit (b : BitVec 1) : Mode := if b = 1#1 then .cbc else .ecb

/-- The padding a code names (30_encoding.md R61). -/
def paddingOfBit (b : BitVec 1) : Padding := if b = 1#1 then .pkcs5 else .none

/-- The command that legal fields stand for, or why they are not legal (30_encoding.md R61, R66). -/
def decodeFields (f : CmdFields) : Except DecodeError Instr :=
  if f.reservedClear = false then .error .reservedBits
  else if f.opKnown = false then .error .reservedOp
  else if f.optionsAllowed = false then .error .optionBits
  else if f.op = 0#2 then .ok (.construct (modeOfBit f.mode) (paddingOfBit f.pad))
  else if f.op = 1#2 then .ok .encrypt
  else .ok .decrypt

/-- The decoder, total on every command word: the six legal words and no other are commands
(30_encoding.md R66). -/
def decode (w : Byte) : Except DecodeError Instr := decodeFields (fieldsOf w)

/-- The word with given fields, bit 7 first (30_encoding.md R61). -/
def wordOfFields (f : CmdFields) : Byte := f.rsv ++ f.pad ++ f.mode ++ f.op

/-- The encoder: `0000pm00`, `00000001`, `00000010` (30_encoding.md R62, R63, R64). -/
def encode (i : Instr) : Byte := wordOfFields i.fields

/-- What the decoder reads from a word numbered as spec/opcode_table.json numbers it. A command is one 8-bit
word (30_encoding.md R60): a number with a bit set above bit 7 is no command (log entry 10). -/
def decodeTableWord (nbits w : Nat) : Option Instr :=
  let v := w % 2 ^ nbits
  if v < 256 then
    match decode (BitVec.ofNat 8 v) with
    | .ok i => some i
    | .error _ => none
  else none

end Sys2Proof
end

