-- ==== Sys2Proof/Machine/Ops.lean ====
section
/-! DEFINITION. The named operations over buffers and registers: MemRead, MemWrite, raise, and the writes a
successful command makes (20_memory.md R42, R43, 60_exceptions.md R204, 44_chaining_padding.md R161, R163, R166). -/

namespace Sys2Proof.Machine

/-- The canonical form of a buffer's listed bytes: indexes strictly rising (log entry 4). -/
def Memory.wf : Memory → Bool
  | [] => true
  | [_] => true
  | c :: d :: rest => decide (c.1 < d.1) && Memory.wf (d :: rest)

/-- The listed byte at an index, if there is one. -/
def Memory.get? : Memory → Nat → Option Byte
  | [], _ => none
  | c :: rest, a => if c.1 = a then some c.2 else Memory.get? rest a

/-- Write one byte, keeping the canonical form. -/
def Memory.set : Memory → Nat → Byte → Memory
  | [], a, v => [(a, v)]
  | c :: rest, a, v =>
    if a < c.1 then (a, v) :: c :: rest
    else if a = c.1 then (a, v) :: rest
    else c :: Memory.set rest a v

/-- Write bytes at `off`, `off + 1`, ... in ascending order (20_memory.md R43). -/
def Memory.setRange : Memory → Nat → List Byte → Memory
  | mem, _, [] => mem
  | mem, off, v :: vs => Memory.setRange (Memory.set mem off v) (off + 1) vs

/-- One byte of a buffer: the listed one, or a free byte where nothing is listed (log entries 4, 5). -/
def Buffer.read (b : Buffer) (i : Nat) : Byte :=
  match Memory.get? b.cells i with
  | some v => v
  | none => Config.freeByte b.fill i

/-- `n` bytes of a buffer from index `off` on, lowest index first (20_memory.md R42). -/
def Buffer.readRange (b : Buffer) (off n : Nat) : List Byte := (List.range n).map fun k => b.read (off + k)

/-- A buffer by name (10_state.md R28). -/
def State.buf (s : State) : BufId → Buffer
  | .key => s.keyBuf
  | .iv => s.ivBuf
  | .inp => s.inBuf
  | .out => s.outBuf

/-- One byte of a named buffer. -/
def State.readByte (s : State) (b : BufId) (i : Nat) : Byte := (s.buf b).read i

/-- `MemRead(BUF + off, n)`: requires `off + n ≤ LEN(BUF)`; a read outside has no rule (20_memory.md R42). -/
def memRead (s : State) (b : BufId) (off n : Nat) : Option (List Byte) :=
  if off + n ≤ (s.buf b).len then some ((s.buf b).readRange off n) else none

/-- `OUT` with `OUTLEN` bytes delivered; every byte at and beyond `OUTLEN` is unspecified after any command, so
it is free draw `fill` (20_memory.md R43, U6; log entry 5). -/
def outBufferOf (bytes : List Byte) (fill : Nat) : Buffer := ⟨Memory.setRange [] 0 bytes, bytes.length, fill⟩

/-- The delivered result: the bytes `OUT[0 .. OUTLEN-1]` (10_state.md R28). -/
def State.outBytes (s : State) : List Byte := s.outBuf.readRange 0 s.outBuf.len

/-- `raise e`: `STATUS <- code(e)`, `OUTLEN <- 0`, nothing else changes; the contents of `OUT` are unspecified
(60_exceptions.md R204). The core has no handler, no saved state and no return (R204, R208). -/
def raiseError (e : Status) (s : State) : State :=
  { s with status := e, outBuf := outBufferOf [] s.draws, draws := s.draws + 1 }

/-- The end of a successful ENCRYPT or DECRYPT: `MemWrite(OUT + 0, len, bytes)`, `OUTLEN <- len`, `STATUS <- Ok`
(44_chaining_padding.md R163, R166). -/
def deliver (bytes : List Byte) (s : State) : State :=
  { s with status := .ok, outBuf := outBufferOf bytes s.draws, draws := s.draws + 1 }

/-- The end of a successful CONSTRUCT: the instance is replaced whole, `OUTLEN <- 0`, `STATUS <- Ok`
(44_chaining_padding.md R161, 41_key_schedule.md R107). -/
def installInstance (K : SubkeyFile) (mode : Mode) (pad : Padding) (iv : Block) (s : State) : State :=
  { s with
    k := K
    cfg := ⟨true, mode, pad⟩
    ivr := iv
    status := .ok
    outBuf := outBufferOf [] s.draws
    draws := s.draws + 1 }

/-- The command word of the next step: what the host wrote into `CMD` (30_encoding.md R60). -/
def fetchWord (s : State) : Byte := s.cmd

end Sys2Proof.Machine
end

