-- ==== Sys2Proof/Machine/Operands.lean ====
section
/-! DEFINITION. The operands of the commands: byte sequences taken whole from the buffers (30_encoding.md R65). -/

namespace Sys2Proof.Machine

/-- The key operand of CONSTRUCT, `MemRead(KEYBUF + 0, 8)` (44_chaining_padding.md R161). -/
def keyOperand (s : State) : Option Block := (memRead s .key 0 8).map toBlock

/-- What CONSTRUCT leaves in `IVR`: in CBC `MemRead(IVBUF + 0, 8)`, in ECB an unspecified value, and `IVBUF` is not
looked at (44_chaining_padding.md R161, 10_state.md R23, U5; log entry 6). -/
def ivOperand (mode : Mode) (s : State) : Option Block :=
  match mode with
  | .ecb => some (Config.freeBlock s.draws)
  | .cbc => (memRead s .iv 0 8).map toBlock

/-- The message operand of ENCRYPT and DECRYPT, `MemRead(IN + 0, INLEN)` (44_chaining_padding.md R163, R166). -/
def messageOperand (s : State) : Option (List Byte) := memRead s .inp 0 s.inBuf.len

/-- Go on with an operand, or stop where the read fell outside its buffer (20_memory.md R42; log entry 14). -/
def withOperand {α : Type} (b : BufId) (operand : Option α) (k : α → Host.Outcome State Fault Refusal) :
    Host.Outcome State Fault Refusal :=
  match operand with
  | some v => k v
  | none => .fault (.outsideBuffer b)

/-- Raise the error a test reports, or go on (60_exceptions.md R204, R207). -/
def unlessError (e : Option Status) (s : State) (k : Host.Outcome State Fault Refusal) :
    Host.Outcome State Fault Refusal :=
  match e with
  | some e => .next (raiseError e s)
  | none => k

end Sys2Proof.Machine
end

