-- ==== Sys2Proof/Machine/Commands.lean ====
section
/-! DEFINITION. The meanings of the three commands (44_chaining_padding.md R161, R163, R166). -/

namespace Sys2Proof.Machine

/-- CONSTRUCT: both length tests before any write, then the key schedule, the IV under CBC, and the configuration
(44_chaining_padding.md R161). -/
def execConstruct (mode : Mode) (pad : Padding) (s : State) : Host.Outcome State Fault Refusal :=
  unlessError (constructError mode s.keyBuf.len s.ivBuf.len) s <|
    withOperand .key (keyOperand s) fun key =>
      withOperand .iv (ivOperand mode s) fun iv =>
        .next (installInstance (keySched key) mode pad iv s)

/-- ENCRYPT: an instance must exist; pad under PKCS5, test the length, chain, deliver
(44_chaining_padding.md R163). -/
def execEncrypt (s : State) : Host.Outcome State Fault Refusal :=
  unlessError (instanceError s.cfg) s <|
    withOperand .inp (messageOperand s) fun m =>
      unlessError (lengthError (padFor s.cfg.pad m).length) s <|
        .next (deliver (chainEnc s.cfg.mode s.k s.ivr (padFor s.cfg.pad m)) s)

/-- DECRYPT with the parameter `UNPAD_ZERO = z`: an instance must exist; test the length, chain, unpad under PKCS5,
deliver (44_chaining_padding.md R166). Unpadding an empty sequence has no outcome in the spec and is refused
(R172, log entry 9). -/
def decryptWith (z : Config.UnpadZero) (s : State) : Host.Outcome State Fault Refusal :=
  unlessError (instanceError s.cfg) s <|
    unlessError (lengthError s.inBuf.len) s <|
      withOperand .inp (messageOperand s) fun c =>
        match unpadFor z s.cfg.pad (chainDec s.cfg.mode s.k s.ivr c) with
        | some m => .next (deliver m s)
        | none => .refused .unpadEmpty

/-- DECRYPT (44_chaining_padding.md R166), with this hardware's `UNPAD_ZERO` (R170, log entry 8). -/
def execDecrypt (s : State) : Host.Outcome State Fault Refusal := decryptWith unpadZero s

end Sys2Proof.Machine
end

