-- ==== Sys2Proof/Machine/Step.lean ====
section
/-! DEFINITION. A step is one whole command, from command word to outcome (00_scope.md R16). -/

namespace Sys2Proof.Machine

/-- One step: the command whose word stands in `CMD`, run to its end (30_encoding.md R60, 00_scope.md R16). A word
that is none of the six legal ones starts no operation and raises `IllegalCommand` (30_encoding.md R66,
60_exceptions.md R206). A step stands for one write of `CMD` by the host (log entry 10). -/
def step (s : State) : Host.Outcome State Fault Refusal :=
  match decode (fetchWord s) with
  | .ok i => exec i s
  | .error _ => .next (raiseError .illegalCommand s)

/-- The host writes the command word `w` into `CMD`, where the next step takes its command (log entry 10). -/
def State.withFetchWord (s : State) (nbits w : Nat) : State :=
  { s with cmd := BitVec.ofNat 8 (w % 2 ^ nbits) }

end Sys2Proof.Machine
end

