-- ==== Sys2Proof/Machine/HostPort.lean ====
section
/-! DEFINITION. What the host can do between commands (10_state.md R28, 30_encoding.md R60, R67,
70_reset_and_hazards.md R230, R231). No host action lands inside a command (00_scope.md R16; log entries 10, 18). -/

namespace Sys2Proof.Machine

/-- One action of the host. -/
inductive HostEvent where
  /-- `BUF := bytes`: writes the bytes from index 0 and sets the length register to their number; no byte given
  stands for an absent operand (30_encoding.md R67). -/
  | load (b : BufId) (bytes : List Byte)
  /-- Writes one byte of a buffer, at any index (10_state.md R28; log entry 20). -/
  | poke (b : BufId) (i : Nat) (v : Byte)
  /-- Writes a length register and no byte (10_state.md R28; log entry 20). -/
  | setLength (b : BufId) (n : Nat)
  /-- Writes `CMD`, which starts the command and runs it to its end (30_encoding.md R60). -/
  | issue (w : Byte)
  /-- Applies reset; how is outside the spec (70_reset_and_hazards.md R230; log entry 19). -/
  | reset
  deriving DecidableEq, Repr

/-- Change one buffer, the host's doing: between commands it may write any of the four, `OUT` included (20_memory.md
R49; log entry 21). -/
def State.onHostBuf (s : State) (b : BufId) (f : Buffer → Buffer) : State :=
  match b with
  | .key => { s with keyBuf := f s.keyBuf }
  | .iv => { s with ivBuf := f s.ivBuf }
  | .inp => { s with inBuf := f s.inBuf }
  | .out => { s with outBuf := f s.outBuf }

/-- `BUF := bytes` on a buffer (30_encoding.md R67); bytes beyond the ones given stay as they were (log entry 20). -/
def Buffer.load (b : Buffer) (bytes : List Byte) : Buffer :=
  { b with cells := Memory.setRange b.cells 0 bytes, len := bytes.length }

/-- Reset of a running core: the state of `State.reset`, with the unlisted bytes of every buffer drawn anew
(10_state.md R31, log entry 19). -/
def State.afterReset (s : State) : State :=
  { State.reset with
    keyBuf := ⟨[], State.reset.keyBuf.len, s.draws⟩
    ivBuf := ⟨[], State.reset.ivBuf.len, s.draws + 1⟩
    inBuf := ⟨[], State.reset.inBuf.len, s.draws + 2⟩
    outBuf := ⟨[], 0, s.draws + 3⟩
    draws := s.draws + 4 }

/-- The effect of one host action. -/
def hostStep (e : HostEvent) (s : State) : Host.Outcome State Fault Refusal :=
  match e with
  | .load b bytes => .next (s.onHostBuf b fun buf => buf.load bytes)
  | .poke b i v => .next (s.onHostBuf b fun buf => { buf with cells := Memory.set buf.cells i v })
  | .setLength b n => .next (s.onHostBuf b fun buf => { buf with len := n })
  | .issue w => step { s with cmd := w }
  | .reset => .next s.afterReset

/-- The action writes `OUT` or `OUTLEN` by the host's own hand (log entry 21). -/
def HostEvent.writesOut : HostEvent → Bool
  | .load b _ => b == .out
  | .poke b _ _ => b == .out
  | .setLength b _ => b == .out
  | .issue _ => false
  | .reset => false

/-- A sequence of host actions, stopping at the first fault or refusal. -/
def runEvents : List HostEvent → State → Host.Outcome State Fault Refusal
  | [], s => .next s
  | e :: es, s =>
    match hostStep e s with
    | .next t => runEvents es t
    | .fault f => .fault f
    | .refused r => .refused r

end Sys2Proof.Machine
end

