-- ==== Sys2Proof/Safety.lean ====
section
/-! DEFINITION. What counts as a good state and a good step of the DES core, in the terms claims use. -/

namespace Sys2Proof.Machine

/-- `t` holds the instance of `s`: the same `K[1..16]`, `CFG` and `IVR` (00_scope.md glossary, cipher instance). -/
structure SameInstance (s t : State) : Prop where
  k : t.k = s.k
  cfg : t.cfg = s.cfg
  ivr : t.ivr = s.ivr

/-- The host's side of `t` is that of `s`: `CMD`, the three operand buffers and their length registers
(20_memory.md R56). -/
structure SameOperands (s t : State) : Prop where
  cmd : t.cmd = s.cmd
  keyBuf : t.keyBuf = s.keyBuf
  ivBuf : t.ivBuf = s.ivBuf
  inBuf : t.inBuf = s.inBuf

/-- `t` is `s` but for the buffer `b`: the other three buffers with their lengths, `CMD`, `STATUS` and the
instance are as they were (20_memory.md R40, R49). -/
structure OnlyBufferChanged (b : BufId) (s t : State) : Prop where
  others : ∀ c, c ≠ b → t.buf c = s.buf c
  cmd : t.cmd = s.cmd
  status : t.status = s.status
  inst : SameInstance s t

/-- `t` is `s` after `raise e` (60_exceptions.md R204): the code is in `STATUS`, nothing is delivered, the instance
and the operands are as they were. -/
structure Raised (e : Status) (s t : State) : Prop where
  status : t.status = e
  outLen : t.outBuf.len = 0
  inst : SameInstance s t
  operands : SameOperands s t

/-- `t` is `s` after a call that delivered `bytes`: `STATUS = Ok`, `OUTLEN` is their number, `OUT[i]` reads byte `i`,
the instance and the operands are as they were (44_chaining_padding.md R163, R166). -/
structure Delivered (bytes : List Byte) (s t : State) : Prop where
  status : t.status = .ok
  outLen : t.outBuf.len = bytes.length
  outByte : ∀ i (h : i < bytes.length), t.readByte .out i = bytes[i]
  inst : SameInstance s t
  operands : SameOperands s t

/-- `t` is `s` after a CONSTRUCT that succeeded with this key, mode and padding (44_chaining_padding.md R161); the IV
register is spoken of apart, as only CBC gives it a value. -/
structure Constructed (key : Block) (mode : Mode) (pad : Padding) (s t : State) : Prop where
  status : t.status = .ok
  outLen : t.outBuf.len = 0
  k : t.k = keySched key
  cfg : t.cfg = ⟨true, mode, pad⟩
  operands : SameOperands s t

/-- The part of the invariant that every action of the host keeps, its own writes of `OUT` included. -/
structure State.HostInv (s : State) : Prop where
  /-- Every buffer's listed bytes are in canonical form (log entry 4). -/
  canonical : ∀ b, Memory.wf (s.buf b).cells = true
  /-- `NotConstructed` is reported only where there is no instance (60_exceptions.md R205). -/
  notConstructed : s.status = .notConstructed → s.cfg.valid = false
  /-- `InvalidBlockLength` is reported only where there is an instance (60_exceptions.md R203, R207). -/
  invalidBlockLength : s.status = .invalidBlockLength → s.cfg.valid = true
  /-- The subkey file of an instance is the key schedule of some key (10_state.md R21, R22). -/
  subkeys : s.cfg.valid = true → ∃ key, s.k = keySched key

/-- The invariant of the core: that part, and that `OUT` and `OUTLEN` are as the last command or reset left them. -/
structure State.Inv (s : State) : Prop extends State.HostInv s where
  /-- The listed bytes of `OUT` are the delivered ones and no others (20_memory.md R40, R43). -/
  outListed : ∀ i, (Memory.get? s.outBuf.cells i).isSome = true ↔ i < s.outBuf.len
  /-- An error delivers nothing (60_exceptions.md R204). -/
  errorDeliversNothing : s.status ≠ .ok → s.outBuf.len = 0
  /-- Something was delivered only where there is an instance (60_exceptions.md R205). -/
  delivery : 0 < s.outBuf.len → s.cfg.valid = true

/-- The one command the spec gives no outcome: DECRYPT, an instance with PKCS5, `INLEN = 0`
(44_chaining_padding.md R172). -/
def State.emptyUnpad (s : State) : Prop :=
  decode s.cmd = .ok .decrypt ∧ s.cfg.valid = true ∧ s.cfg.pad = .pkcs5 ∧ s.inBuf.len = 0

/-- A safe step ends in a next state. -/
def State.SafeStep (s : State) : Prop := ∃ t, step s = .next t

/-- `s` and `t` agree on `STATUS`, `OUTLEN`, the bytes written into `OUT`, whether an instance exists, of an instance
its mode, padding, subkeys and, in CBC, its IV, and on `CMD`, the operand buffers and their length registers, unspecified
at reset or not. Of what 10_state.md R31 and R23 and 20_memory.md R43 leave unspecified they may differ in `K`, `MODE`,
`PAD`, `IVR` before a CONSTRUCT succeeded, `IVR` in ECB, and every byte of `OUT` that nothing has written since the last
command. `draws` only numbers the model's free values. -/
structure SameSpecified (s t : State) : Prop where
  operands : SameOperands s t
  status : t.status = s.status
  outCells : t.outBuf.cells = s.outBuf.cells
  outLen : t.outBuf.len = s.outBuf.len
  draws : t.draws = s.draws
  valid : t.cfg.valid = s.cfg.valid
  cfg : s.cfg.valid = true → t.cfg = s.cfg
  k : s.cfg.valid = true → t.k = s.k
  ivr : s.cfg.valid = true → s.cfg.mode = .cbc → t.ivr = s.ivr

/-- `s` and `t` agree on everything a host may see now or later: that, and the bytes `OUT[0 .. OUTLEN-1]`. -/
structure SameForHost (s t : State) : Prop extends SameSpecified s t where
  outBytes : t.outBytes = s.outBytes

/-- `s` and `t` agree on the four length registers, on the bytes within them, on `STATUS`, and on the instance as far as
commands read it. They may differ in all that 10_state.md R31 and R23 and 20_memory.md R43 leave unspecified, but for the
three operand lengths and the bytes within them: `CMD`, `K`, `MODE`, `PAD`, `IVR` before a CONSTRUCT succeeded, `IVR` in
ECB, and every byte of a buffer at and beyond its length. `draws` only numbers the model's free values. -/
structure SameWithinLengths (s t : State) : Prop where
  len : ∀ b, (t.buf b).len = (s.buf b).len
  byte : ∀ b i, i < (s.buf b).len → t.readByte b i = s.readByte b i
  status : t.status = s.status
  draws : t.draws = s.draws
  valid : t.cfg.valid = s.cfg.valid
  cfg : s.cfg.valid = true → t.cfg = s.cfg
  k : s.cfg.valid = true → t.k = s.k
  ivr : s.cfg.valid = true → s.cfg.mode = .cbc → t.ivr = s.ivr

/-- Two outcomes that end alike, in next states that `R` relates. -/
def SameOutcome (R : State → State → Prop) :
    Host.Outcome State Fault Refusal → Host.Outcome State Fault Refusal → Prop
  | .next s, .next t => R s t
  | .fault f, .fault g => f = g
  | .refused r, .refused q => r = q
  | _, _ => False

/-- The message in `IN`: the bytes `IN[0 .. INLEN-1]`. -/
def State.message (s : State) : List Byte := s.inBuf.readRange 0 s.inBuf.len

/-- The eight key bytes `KEYBUF[0 .. 7]` as a block. -/
def State.keyBlock (s : State) : Block := toBlock (s.keyBuf.readRange 0 8)

/-- The eight IV bytes `IVBUF[0 .. 7]` as a block. -/
def State.ivBlock (s : State) : Block := toBlock (s.ivBuf.readRange 0 8)

end Sys2Proof.Machine
end

