-- ==== Sys2Proof/Certificates/Slice0/Obligations.lean ====
section
/-! DEFINITION. The statements for the provers. Each docstring names the rule of spec/ it formalises. -/

open Sys2Proof Sys2Proof.Machine

/-! ### Command words and the step -/

/-- The six legal words, written out from `0000pm00`, `00000001`, `00000010` (30_encoding.md R62, R63, R64). -/
def Obligations.SixWordsDecode : Prop :=
  decode 0b00000000#8 = .ok (.construct .ecb .none) ∧ decode 0b00000100#8 = .ok (.construct .cbc .none) ∧
  decode 0b00001000#8 = .ok (.construct .ecb .pkcs5) ∧ decode 0b00001100#8 = .ok (.construct .cbc .pkcs5) ∧
  decode 0b00000001#8 = .ok .encrypt ∧ decode 0b00000010#8 = .ok .decrypt

/-- Decoding and encoding agree in both directions (30_encoding.md R61 to R64, R66). -/
def Obligations.DecodeInvertsEncode : Prop :=
  (∀ i : Instr, i.wf = true → decode (encode i) = .ok i) ∧
  ∀ (w : Byte) (i : Instr), decode w = .ok i → encode i = w ∧ i.wf = true

/-- A word is legal exactly when it is one of six; any other raises `IllegalCommand` and nothing else changes
(30_encoding.md R66, 60_exceptions.md R206). -/
def Obligations.IllegalWordsRaiseIllegalCommand : Prop :=
  ∀ s : State,
    ((∃ i, decode s.cmd = .ok i) ↔ s.cmd ∈ [0x00#8, 0x04#8, 0x08#8, 0x0C#8, 0x01#8, 0x02#8]) ∧
    (s.cmd ∉ [0x00#8, 0x04#8, 0x08#8, 0x0C#8, 0x01#8, 0x02#8] →
      ∃ t, step s = .next t ∧ Raised .illegalCommand s t)

/-- A step runs the command its word decodes to, and nothing is added around it (00_scope.md R16). That a step starts
from the word that stands in `CMD` is log entry 10. -/
def Obligations.StepRunsTheDecodedCommand : Prop :=
  ∀ (s : State) (i : Instr), decode s.cmd = .ok i → step s = exec i s

/-- The codes of `STATUS` (10_state.md R24, 60_exceptions.md R200) and the bits of `CFG` (10_state.md R22). -/
def Obligations.StatusAndCfgCodes : Prop :=
  Status.code .ok = 0#3 ∧ Status.code .invalidKeyLength = 1#3 ∧ Status.code .invalidIVLength = 2#3 ∧
  Status.code .invalidBlockLength = 3#3 ∧ Status.code .notConstructed = 4#3 ∧ Status.code .illegalCommand = 5#3 ∧
  (∀ e : Status, e.code ≠ 6#3 ∧ e.code ≠ 7#3) ∧
  ∀ c : Cfg, (c.word.getLsbD 0 = c.valid) ∧ (c.word.getLsbD 1 = true ↔ c.mode = .cbc) ∧
    (c.word.getLsbD 2 = true ↔ c.pad = .pkcs5)

/-! ### Reset and invariants -/

/-- What reset leaves: no instance, `STATUS = Ok`, `OUTLEN = 0`, in the state the machine starts from and after a reset
of a running core, whatever it held (10_state.md R31, 70_reset_and_hazards.md R230). -/
def Obligations.ResetLeavesNoInstance : Prop :=
  (State.reset.cfg.valid = false ∧ State.reset.status = .ok ∧ State.reset.outBuf.len = 0) ∧
  ∀ s : State, ∃ t, hostStep .reset s = .next t ∧ t.cfg.valid = false ∧ t.status = .ok ∧ t.outBuf.len = 0

/-- The state after reset meets the invariant. -/
def Obligations.ResetMeetsTheInvariant : Prop := State.reset.Inv

/-- Every step keeps the invariant: canonical buffers, `OUT` lists what was delivered, errors deliver nothing,
`NotConstructed` only without and `InvalidBlockLength` and deliveries only with an instance, and the subkeys of an
instance are the key schedule of some key (60_exceptions.md R203 to R205, 10_state.md R21, R22).The canonical form is log entry 4;
that `OUT` lists no byte but the delivered ones, as the rest is free, is log entry 5. -/
def Obligations.StepKeepsTheInvariant : Prop :=
  ∀ s t : State, s.Inv → step s = .next t → t.Inv

/-- Whatever the host does between commands, the invariant is kept: any sequence of buffer writes, length writes,
commands and resets (10_state.md R28, 20_memory.md R49, 30_encoding.md R67). The part that speaks of `OUT` as a command
left it is kept where the host does not write `OUT` itself (log entry 21).Canonical form and what `OUT` lists are
log entries 4 and 5. -/
def Obligations.HostRunsKeepTheInvariant : Prop :=
  (∀ (es : List HostEvent) (s t : State), s.HostInv → runEvents es s = .next t → t.HostInv) ∧
  ∀ (es : List HostEvent) (s t : State), s.Inv → (∀ e ∈ es, e.writesOut = false) → runEvents es s = .next t → t.Inv

/-- Every command, and every reset, makes `OUT` and `OUTLEN` its own, whatever the host had written there: the whole
invariant holds afterwards (20_memory.md R43, R49, 60_exceptions.md R204).That `OUT` then lists no byte but the
delivered ones, as the rest is free, is log entry 5. -/
def Obligations.EveryCommandMakesOutItsOwn : Prop :=
  ∀ s t : State, s.HostInv → (step s = .next t ∨ hostStep .reset s = .next t) → t.Inv

/-- No command reads `OUT` or `OUTLEN`: whatever the host writes there, the next command ends in the same outcome, with
the same next state (20_memory.md R40, R49). The rules give the same `STATUS`, `OUTLEN` and delivered bytes; that the
bytes of `OUT` at and beyond `OUTLEN` are the same too is the model's choice, log entry 5 (DESIGN CHOICE: they are drawn
anew), as R43 leaves them unspecified and hardware may keep what stood there. -/
def Obligations.NoCommandReadsOut : Prop :=
  ∀ (i : Instr) (s : State) (out : Buffer),
    exec i { s with outBuf := out } = exec i s ∧ step { s with outBuf := out } = step s

/-- A step never faults, and the only stop is the one case the spec gives no outcome: DECRYPT of the empty sequence
with PKCS5 (00_scope.md R15, 44_chaining_padding.md R172). -/
def Obligations.StepStopsOnlyOnTheEmptyUnpad : Prop :=
  ∀ s : State, (s.emptyUnpad → step s = .refused .unpadEmpty) ∧ (¬ s.emptyUnpad → s.SafeStep)

/-! ### What a step leaves unchanged -/

/-- A failed command writes its code and `OUTLEN = 0` and nothing else (60_exceptions.md R204). -/
def Obligations.FailedCommandChangesNothing : Prop :=
  ∀ s t : State, step s = .next t → t.status ≠ .ok → Raised t.status s t

/-- `K`, `CFG`, `IVR` change only as a whole, by a successful CONSTRUCT (70_reset_and_hazards.md R232,
41_key_schedule.md R107). -/
def Obligations.OnlyConstructChangesTheInstance : Prop :=
  ∀ s t : State, step s = .next t →
    SameInstance s t ∨
    ∃ mode pad, decode s.cmd = .ok (.construct mode pad) ∧ Constructed s.keyBlock mode pad s t ∧
      (mode = .cbc → t.ivr = s.ivBlock)

/-- The frame of the buffers: no command writes `CMD`, `KEYBUF`, `IVBUF`, `IN` or their lengths, and every byte of
those three reads as before (20_memory.md R56, 10_state.md R28). `OUT` is no part of it: its bytes at and beyond
`OUTLEN` are unspecified after any command (20_memory.md R43). -/
def Obligations.OperandBuffersAreNeverWritten : Prop :=
  ∀ (i : Instr) (s t : State), exec i s = .next t →
    SameOperands s t ∧ ∀ b a, b ≠ .out → t.readByte b a = s.readByte b a

/-- Which error a command reports, exactly, with the order of the tests (60_exceptions.md R202, R203, R205, R206,
R207). -/
def Obligations.ErrorsAreReportedExactlyForTheirCause : Prop :=
  ∀ s t : State, step s = .next t →
    (t.status = .illegalCommand ↔ ∀ i, decode s.cmd ≠ .ok i) ∧
    (t.status = .invalidKeyLength ↔
      ∃ mode pad, decode s.cmd = .ok (.construct mode pad) ∧ s.keyBuf.len ≠ 8) ∧
    (t.status = .invalidIVLength ↔
      ∃ pad, decode s.cmd = .ok (.construct .cbc pad) ∧ s.keyBuf.len = 8 ∧ s.ivBuf.len ≠ 8) ∧
    (t.status = .notConstructed ↔
      (decode s.cmd = .ok .encrypt ∨ decode s.cmd = .ok .decrypt) ∧ s.cfg.valid = false) ∧
    (t.status = .invalidBlockLength ↔
      s.cfg.valid = true ∧ s.inBuf.len % 8 ≠ 0 ∧
      ((decode s.cmd = .ok .encrypt ∧ s.cfg.pad = .none) ∨ decode s.cmd = .ok .decrypt))

/-- MemRead returns the bytes of its range, lowest index first, within the buffer's length (20_memory.md R42). That
it gives nothing for a read outside the buffer, which has no rule, is log entry 14. -/
def Obligations.MemReadReturnsTheRange : Prop :=
  ∀ (s : State) (b : BufId) (off n : Nat),
    (off + n ≤ (s.buf b).len → ∃ bytes : List Byte, memRead s b off n = some bytes ∧ bytes.length = n ∧
      ∀ k (h : k < bytes.length), bytes[k] = s.readByte b (off + k)) ∧
    (¬ off + n ≤ (s.buf b).len → memRead s b off n = none)

/-- `BUF := bytes` of the host, for each of the four buffers: the length is the number of bytes given, byte `i` the one
given, and nothing outside that buffer is touched; the operands the commands take, and what the host reads of `OUT`, are
those bytes (30_encoding.md R67, R65, 20_memory.md R40, R49). That bytes beyond the ones given stay as they were is log
entry 20, and that `OUT` may be loaded like the others log entry 21. -/
def Obligations.HostLoadFillsOneBuffer : Prop :=
  ∀ (b : BufId) (s : State) (bytes : List Byte),
    ∃ t, hostStep (.load b bytes) s = .next t ∧ OnlyBufferChanged b s t ∧ (t.buf b).len = bytes.length ∧
      (∀ i (h : i < bytes.length), t.readByte b i = bytes[i]) ∧
      (∀ i, bytes.length ≤ i → t.readByte b i = s.readByte b i) ∧
      (b = .inp → t.message = bytes) ∧
      (b = .key → bytes.length = 8 → t.keyBlock = toBlock bytes) ∧
      (b = .iv → bytes.length = 8 → t.ivBlock = toBlock bytes) ∧
      (b = .out → t.outBytes = bytes)

/-- The host's write of one byte changes that byte and nothing else, and its write of a length register that length and
nothing else, for each of the four buffers (10_state.md R28, 20_memory.md R40, R49). That the byte may lie at any index,
and that the length's write touches no byte, is log entry 20; that `OUT` and `OUTLEN` may be written like the others log
entry 21. -/
def Obligations.HostWritesOneByteOrOneLength : Prop :=
  ∀ (b : BufId) (s : State),
    (∀ (i : Nat) (v : Byte), ∃ t, hostStep (.poke b i v) s = .next t ∧ OnlyBufferChanged b s t ∧
      (t.buf b).len = (s.buf b).len ∧ t.readByte b i = v ∧
      ∀ a, a ≠ i → t.readByte b a = s.readByte b a) ∧
    ∀ n : Nat, ∃ t, hostStep (.setLength b n) s = .next t ∧ OnlyBufferChanged b s t ∧
      (t.buf b).len = n ∧ ∀ a, t.readByte b a = s.readByte b a

/-- The host's write of a word into `CMD` runs the command the word decodes to, from the state with that word in `CMD`;
an illegal word raises `IllegalCommand` there (30_encoding.md R60, R66). -/
def Obligations.HostIssueRunsTheWord : Prop :=
  ∀ (w : Byte) (s : State),
    (∀ i, decode w = .ok i → hostStep (.issue w) s = exec i { s with cmd := w }) ∧
    ((∀ i, decode w ≠ .ok i) → ∃ t, hostStep (.issue w) s = .next t ∧ Raised .illegalCommand { s with cmd := w } t)

/-! ### CONSTRUCT -/

/-- CONSTRUCT, whole: the two errors in order of test, and the effect; in ECB the spec gives `IVR` no value
(44_chaining_padding.md R161). -/
def Obligations.ConstructFollowsItsRule : Prop :=
  ∀ (mode : Mode) (pad : Padding) (s : State),
    (s.keyBuf.len ≠ 8 →
      ∃ t, exec (.construct mode pad) s = .next t ∧ Raised .invalidKeyLength s t) ∧
    (s.keyBuf.len = 8 → mode = .cbc → s.ivBuf.len ≠ 8 →
      ∃ t, exec (.construct mode pad) s = .next t ∧ Raised .invalidIVLength s t) ∧
    (s.keyBuf.len = 8 → (mode = .cbc → s.ivBuf.len = 8) →
      ∃ t, exec (.construct mode pad) s = .next t ∧ Constructed s.keyBlock mode pad s t ∧
        (mode = .cbc → t.ivr = s.ivBlock))

/-- Under ECB the IV operand is not examined: another IV buffer, of any length, changes nothing but itself
(30_encoding.md R65, 60_exceptions.md R202). That `IVR` and the bytes of `OUT` at and beyond `OUTLEN`, which the spec
leaves unspecified there, are the same too is the model's choice (log entries 5, 6). -/
def Obligations.EcbConstructIgnoresTheIv : Prop :=
  ∀ (pad : Padding) (s : State) (iv : Buffer),
    ∃ t, exec (.construct .ecb pad) s = .next t ∧
      exec (.construct .ecb pad) { s with ivBuf := iv } = .next { t with ivBuf := iv }

/-- Two cores given the same key, mode, padding and (in CBC) IV hold the same subkeys, whatever they held before, and
encrypt and decrypt every message alike (41_key_schedule.md R109(a), 20_memory.md R47). -/
def Obligations.SameKeySameCiphertext : Prop :=
  ∀ (mode : Mode) (pad : Padding) (s s' t t' : State) (msg : Buffer),
    exec (.construct mode pad) s = .next t → exec (.construct mode pad) s' = .next t' →
    t.status = .ok → t'.status = .ok → s.keyBlock = s'.keyBlock → (mode = .cbc → s.ivBlock = s'.ivBlock) →
    t.k = t'.k ∧
    ∀ i : Instr, i = .encrypt ∨ i = .decrypt → ∀ u, exec i { t with inBuf := msg } = .next u →
      ∃ u', exec i { t' with inBuf := msg } = .next u' ∧ u'.status = u.status ∧ u'.outBytes = u.outBytes

/-- The parity positions 8, 16, ..., 64 of the key reach no subkey (41_key_schedule.md R102). -/
def Obligations.ParityBitsAreDropped : Prop :=
  ∀ key key' : Block, (∀ p, 1 ≤ p → p ≤ 64 → p % 8 ≠ 0 → bitAt key p = bitAt key' p) →
    pc1Split key = pc1Split key' ∧ keySched key = keySched key'

/-! ### Key schedule -/

/-- The sixteen subkeys: PC1 and the split, then for each round the rotation of both halves before the subkey of that
round, through PC2 (41_key_schedule.md R101, R105, R106). -/
def Obligations.KeyScheduleFollowsItsRule : Prop :=
  ∀ key : Block,
    (keyHalvesAfter key 0).1 ++ (keyHalvesAfter key 0).2 = permute tablePC1 key ∧
    ∀ n, 1 ≤ n → n ≤ 16 →
      keyHalvesAfter key n =
        (rotl28 (keyHalvesAfter key (n - 1)).1 (shiftAmount n),
          rotl28 (keyHalvesAfter key (n - 1)).2 (shiftAmount n)) ∧
      subkeyReg (keySched key) n = permute tablePC2 ((keyHalvesAfter key n).1 ++ (keyHalvesAfter key n).2)

/-- `SHIFT(n)` as the rule's table, and `C_n`, `D_n` as `C_0`, `D_0` rotated left by the running total
(41_key_schedule.md R104). -/
def Obligations.KeyHalvesRotateByRunningTotals : Prop :=
  (∀ n, 1 ≤ n → n ≤ 16 → shiftAmount n = [1, 1, 2, 2, 2, 2, 2, 2, 1, 2, 2, 2, 2, 2, 2, 1].getD (n - 1) 0) ∧
  ∀ (key : Block) (n : Nat), 1 ≤ n → n ≤ 16 →
    keyHalvesAfter key n =
      ((pc1Split key).1.rotateLeft ([1, 2, 4, 6, 8, 10, 12, 14, 15, 17, 19, 21, 23, 25, 27, 28].getD (n - 1) 0),
        (pc1Split key).2.rotateLeft ([1, 2, 4, 6, 8, 10, 12, 14, 15, 17, 19, 21, 23, 25, 27, 28].getD (n - 1) 0))

/-- `C_16 = C_0`, `D_16 = D_0`, and each subkey is a selection, the same for every key, of 48 of the 56 bits of
`C_0 ‖ D_0`, 24 from each half (41_key_schedule.md R109(b), (c)). -/
def Obligations.SubkeysSelectKeyBits : Prop :=
  (∀ key : Block, keyHalvesAfter key 16 = pc1Split key) ∧
  ∀ n, 1 ≤ n → n ≤ 16 → ∃ sel : Fin 48 → Fin 56, Function.Injective sel ∧
    (∀ j, j.val < 24 ↔ (sel j).val < 28) ∧
    ∀ (key : Block) (j : Fin 48), bitAt (subkeyReg (keySched key) n) (j.val + 1) =
      bitAt ((pc1Split key).1 ++ (pc1Split key).2) ((sel j).val + 1)

/-- ROTL28 position by position, as an integer, twice by one, and its fixed points (41_key_schedule.md R103). -/
def Obligations.RotationMovesEveryBitAround : Prop :=
  ∀ (x : KeyHalf) (s : Nat), s = 1 ∨ s = 2 →
    (∀ i, 1 ≤ i → i ≤ 28 → bitAt (rotl28 x s) i = bitAt x ((i - 1 + s) % 28 + 1)) ∧
    (rotl28 x s).toNat = x.toNat * 2 ^ s % 2 ^ 28 + x.toNat / 2 ^ (28 - s) ∧
    rotl28 x 2 = rotl28 (rotl28 x 1) 1 ∧
    rotl28 0#28 s = 0#28 ∧ rotl28 (BitVec.allOnes 28) s = BitVec.allOnes 28

/-- Encryption reads the subkeys in order, decryption the same file in reverse (41_key_schedule.md R108). -/
def Obligations.DecryptionReadsSubkeysInReverse : Prop :=
  ∀ (K : SubkeyFile) (n : Nat) (h1 : 1 ≤ n) (h2 : n ≤ 16),
    ksel .enc n = n ∧ ksel .dec n = 17 - n ∧
    subkeyReg K (ksel .enc n) = K[n - 1]'(by omega) ∧ subkeyReg K (ksel .dec n) = K[16 - n]'(by omega)

/-! ### Permutation engine and round function -/

/-- Output bit `i` is input bit `T[i]` (40_permutation_engine.md R80). -/
def Obligations.PermuteMovesEachBit : Prop :=
  ∀ (m w : Nat) (T : Vector Nat m) (s : BitVec w), permTableWf w T = true →
    ∀ i (h : i < m), bitAt (permute T s) (i + 1) = bitAt s T[i]

/-- The properties of the tables (40_permutation_engine.md R89): (a) `IP`, `FP`, `P` are bijections of positions; (b)
`FP` inverts `IP` on positions and on sequences; (c) `PC1` has distinct entries and no multiple of 8; (d) `PC2` has
distinct entries; (e) `E` covers all positions. -/
def Obligations.TablesHaveTheirProperties : Prop :=
  (∀ p, 1 ≤ p → p ≤ 64 → tableIP.toList.count p = 1 ∧ tableFP.toList.count p = 1) ∧
  (∀ p, 1 ≤ p → p ≤ 32 → tableP.toList.count p = 1) ∧
  (∀ i, 1 ≤ i → i ≤ 64 → tableFP.toList.getD (tableIP.toList.getD (i - 1) 0 - 1) 0 = i ∧
    tableIP.toList.getD (tableFP.toList.getD (i - 1) 0 - 1) 0 = i) ∧
  (∀ s : Block, permute tableFP (permute tableIP s) = s) ∧
  (tablePC1.toList.Nodup ∧ ∀ p ∈ tablePC1.toList, p % 8 ≠ 0) ∧
  tablePC2.toList.Nodup ∧
  ∀ p, 1 ≤ p → p ≤ 32 → p ∈ tableE.toList

/-- EXPAND permutes by `E`; group `j` is input positions `4j−4 .. 4j+1`, with position 0 read as 32 and 33 as 1
(42_round_function.md R121). -/
def Obligations.ExpandDuplicatesEdgeBits : Prop :=
  (∀ r : Half, expand r = permute tableE r) ∧
  ∀ (r : Half) (j k : Nat), 1 ≤ j → j ≤ 8 → k < 6 →
    bitAt (expand r) (6 * j - 5 + k) =
      bitAt r (if 4 * j - 4 + k = 0 then 32 else if 4 * j - 4 + k = 33 then 1 else 4 * j - 4 + k)

/-- SBOX: the entry `S_j[16·row + col]` with `row = 2·g[1] + g[6]`, `col = uint(g[2..5])`; each row of each box is a
permutation of 0..15 and each box is four-to-one (42_round_function.md R123). -/
def Obligations.SboxLooksUpRowAndColumn : Prop :=
  ∀ j : Fin 8,
    (∀ g : BitVec 6, (sbox j g).toNat =
      (sboxTable j).toList.getD (16 * (2 * (bitAt g 1).toNat + (bitAt g 6).toNat) + (slice g 2 4).toNat) 0) ∧
    (∀ (r : Fin 4) (v : Fin 16), (((sboxTable j).toList.drop (16 * r.val)).take 16).count v.val = 1) ∧
    ∀ v : BitVec 4, ((List.range 64).map fun g => sbox j (BitVec.ofNat 6 g)).count v = 4

/-- SUBST: group `j` of six bits through S-box `j` gives group `j` of four bits (42_round_function.md R124). -/
def Obligations.SubstWorksGroupwise : Prop :=
  ∀ (y : BitVec 48) (j : Fin 8), slice (subst y) (4 * j.val + 1) 4 = sbox j (slice y (6 * j.val + 1) 6)

/-- KEYMIX is the exclusive or, PPERM permutes by `P`, and F is the four steps in order; it depends on its operands only through `EXPAND(r) xor k`, is the same on the
complemented pair, and is not one-to-one in `r` (42_round_function.md R122, R126, R127). -/
def Obligations.RoundFunctionSeesOnlyTheMix : Prop :=
  (∀ (x : BitVec 48) (k : Subkey), keyMix x k = x ^^^ k) ∧ (∀ z : Half, pPerm z = permute tableP z) ∧
  (∀ (r : Half) (k : Subkey), roundF r k = pPerm (subst (keyMix (expand r) k)) ∧
    roundF r k = permute tableP (subst (expand r ^^^ k))) ∧
  (∀ (r r' : Half) (k k' : Subkey), expand r ^^^ k = expand r' ^^^ k' → roundF r k = roundF r' k') ∧
  (∀ (r : Half) (k : Subkey), roundF r k = roundF (~~~r) (~~~k)) ∧
  ∃ (r r' : Half) (k : Subkey), r ≠ r' ∧ roundF r k = roundF r' k

/-! ### Block transform -/

/-- One round, and that it is a bijection on the halves for every subkey, with its inverse
(43_block_transform.md R142). -/
def Obligations.FeistelRoundIsABijection : Prop :=
  ∀ k : Subkey,
    (∀ l r : Half, feistelRound (l, r) k = (r, l ^^^ roundF r k)) ∧
    Function.Bijective (fun lr : Half × Half => feistelRound lr k) ∧
    ∀ lr : Half × Half, lr.2 = (feistelRound lr k).1 ∧
      lr.1 = (feistelRound lr k).2 ^^^ roundF (feistelRound lr k).1 k

/-- The block transform in both directions: initial permutation and split, sixteen rounds with the subkey of the
direction, `R_16 ‖ L_16`, final permutation (43_block_transform.md R141, R143 to R146). -/
def Obligations.BlockTransformFollowsItsRule : Prop :=
  ∀ (K : SubkeyFile) (dir : Dir) (b : Block),
    (halvesAfter K dir b 0).1 ++ (halvesAfter K dir b 0).2 = permute tableIP b ∧
    (∀ n, 1 ≤ n → n ≤ 16 → halvesAfter K dir b n =
      feistelRound (halvesAfter K dir b (n - 1)) (subkeyReg K (match dir with | .enc => n | .dec => 17 - n))) ∧
    blockTransform K dir b =
      permute tableFP ((halvesAfter K dir b 16).2 ++ (halvesAfter K dir b 16).1 : Block) ∧
    blockEnc K b = blockTransform K .enc b ∧ blockDec K b = blockTransform K .dec b

/-- Round trip in both directions, so that both transforms are bijections on blocks (43_block_transform.md R147). -/
def Obligations.BlockRoundTrip : Prop :=
  ∀ K : SubkeyFile,
    (∀ b : Block, blockDec K (blockEnc K b) = b ∧ blockEnc K (blockDec K b) = b) ∧
    Function.Bijective (blockEnc K) ∧ Function.Bijective (blockDec K)

/-- Decrypting passes through the halves of encryption exchanged and in reverse (43_block_transform.md R146, R147). -/
def Obligations.DecryptionRetracesEncryption : Prop :=
  ∀ (K : SubkeyFile) (b : Block) (n : Nat), n ≤ 16 →
    halvesAfter K .dec (blockEnc K b) n = (halvesAfter K .enc b (16 - n)).swap

/-- Where all sixteen subkeys are equal, as for the all-zero key, encrypting and decrypting a block are the same
function (41_key_schedule.md R110). -/
def Obligations.EqualSubkeysMakeBothDirectionsEqual : Prop :=
  (∀ K : SubkeyFile, (∀ m n, 1 ≤ m → m ≤ 16 → 1 ≤ n → n ≤ 16 → subkeyReg K m = subkeyReg K n) →
    blockEnc K = blockDec K) ∧
  blockEnc (keySched 0#64) = blockDec (keySched 0#64)

/-! ### Bytes, padding and chaining -/

/-- `BytesToBits` position by position, `BitsToBytes` its inverse both ways, and exclusive-or bytewise
(00_scope.md R12). -/
def Obligations.BytesAndBitsConvert : Prop :=
  (∀ (B : List Byte) (k j : Nat) (h : k < B.length), 1 ≤ j → j ≤ 8 →
    bitAt (bytesToBits B) (8 * k + j) = B[k].getLsbD (8 - j)) ∧
  (∀ B : List Byte, bitsToBytes (bytesToBits B) = B) ∧
  (∀ (m : Nat) (s : BitVec (8 * m)), (bytesToBits (bitsToBytes s)).toNat = s.toNat) ∧
  ∀ B B' : List Byte, B.length = B'.length →
    (bytesToBits (List.zipWith (· ^^^ ·) B B')).toNat = (bytesToBits B).toNat ^^^ (bytesToBits B').toNat

/-- Position `p` of a block is bit `7 − ((p−1) mod 8)` of byte `floor((p−1)/8)`, and block `i` of a message is its
bytes `8i .. 8i+7` (20_memory.md R45, 44_chaining_padding.md R160). -/
def Obligations.BlocksAreCutInByteOrder : Prop :=
  (∀ (B : List Byte) (p : Nat), B.length = 8 → 1 ≤ p → p ≤ 64 →
    bitAt (toBlock B) p = (B.getD ((p - 1) / 8) 0#8).getLsbD (7 - (p - 1) % 8)) ∧
  ∀ (m : List Byte) (i : Nat), m.length % 8 = 0 → i < m.length / 8 →
    (blocksOf m)[i]? = some (toBlock ((m.drop (8 * i)).take 8))

/-- PAD appends `p = 8 − (len mod 8)` bytes of value `p`, 1 to 8 of them, up to the next multiple of 8 strictly above
the length (44_chaining_padding.md R162). -/
def Obligations.PadFillsTheLastBlock : Prop :=
  ∀ m : List Byte, ∃ p, p = 8 - m.length % 8 ∧ 1 ≤ p ∧ p ≤ 8 ∧ (m.length % 8 = 0 → p = 8) ∧
    padMessage m = m ++ List.replicate p (BitVec.ofNat 8 p) ∧
    (padMessage m).length % 8 = 0 ∧ m.length < (padMessage m).length ∧ (padMessage m).length ≤ m.length + 8

/-- UNPAD for every last byte `n`: `1 ≤ n ≤ len` strips `n` bytes unchecked, `n = 0` follows `UNPAD_ZERO`, `n > len`
strips everything (44_chaining_padding.md R169, R170, R171). It holds for both values of `UNPAD_ZERO`. -/
def Obligations.UnpadTrustsTheLastByte : Prop :=
  ∀ (z : Config.UnpadZero) (init : List Byte) (n : Byte),
    (1 ≤ n.toNat → n.toNat ≤ init.length + 1 →
      unpadMessage z (init ++ [n]) = some (init.take (init.length + 1 - n.toNat))) ∧
    (n.toNat = 0 → unpadMessage .keep (init ++ [n]) = some (init ++ [n]) ∧
      unpadMessage .empty (init ++ [n]) = some []) ∧
    (init.length + 1 < n.toNat → unpadMessage z (init ++ [n]) = some [])

/-- Unpadding a padded message gives the message back, for both values of `UNPAD_ZERO` (44_chaining_padding.md R178). -/
def Obligations.UnpadUndoesPad : Prop :=
  ∀ (z : Config.UnpadZero) (m : List Byte), unpadMessage z (padMessage m) = some m

/-- CBC encryption: ciphertext block `i` is the encryption of plaintext block `i` xor the chaining value, which is the
IV for `i = 0` and otherwise ciphertext block `i − 1` (44_chaining_padding.md R165). -/
def Obligations.CbcEncryptChainsCiphertext : Prop :=
  ∀ (K : SubkeyFile) (iv : Block) (m : List Byte), m.length % 8 = 0 →
    (cbcEnc K iv m).length = m.length ∧
    ∀ i, i < m.length / 8 →
      (blocksOf (cbcEnc K iv m)).getD i 0 =
        blockEnc K ((blocksOf m).getD i 0 ^^^ (iv :: blocksOf (cbcEnc K iv m)).getD i 0)

/-- CBC decryption: plaintext block `i` is the decryption of ciphertext block `i` xor the chaining value, which is the
IV for `i = 0` and otherwise ciphertext block `i − 1` as received (44_chaining_padding.md R168). -/
def Obligations.CbcDecryptChainsCiphertext : Prop :=
  ∀ (K : SubkeyFile) (iv : Block) (c : List Byte), c.length % 8 = 0 →
    (cbcDec K iv c).length = c.length ∧
    ∀ i, i < c.length / 8 →
      (blocksOf (cbcDec K iv c)).getD i 0 =
        blockDec K ((blocksOf c).getD i 0) ^^^ (iv :: blocksOf c).getD i 0

/-- ECB: block `i` of the result is the transform of block `i` alone, both ways, and equal blocks give equal blocks
(44_chaining_padding.md R164, R167, R175). -/
def Obligations.EcbBlocksAreIndependent : Prop :=
  ∀ (K : SubkeyFile) (m : List Byte), m.length % 8 = 0 →
    (ecbEnc K m).length = m.length ∧ (ecbDec K m).length = m.length ∧
    (∀ i, i < m.length / 8 →
      (blocksOf (ecbEnc K m)).getD i 0 = blockEnc K ((blocksOf m).getD i 0) ∧
      (blocksOf (ecbDec K m)).getD i 0 = blockDec K ((blocksOf m).getD i 0)) ∧
    ∀ i j, i < m.length / 8 → j < m.length / 8 → (blocksOf m).getD i 0 = (blocksOf m).getD j 0 →
      (blocksOf (ecbEnc K m)).getD i 0 = (blocksOf (ecbEnc K m)).getD j 0

/-- A change of one ciphertext block, by a nonzero difference, under decryption: in ECB exactly that plaintext block
changes; in CBC that block changes, the next differs by the same difference, and no other changes
(44_chaining_padding.md R176). -/
def Obligations.CiphertextErrorsPropagateExactly : Prop :=
  ∀ (K : SubkeyFile) (iv δ : Block) (c c' : List Byte) (i : Nat),
    c.length % 8 = 0 → c'.length = c.length → i < c.length / 8 → δ ≠ 0 →
    (blocksOf c').getD i 0 = (blocksOf c).getD i 0 ^^^ δ →
    (∀ j, j ≠ i → (blocksOf c').getD j 0 = (blocksOf c).getD j 0) →
    (∀ j, j ≠ i → (blocksOf (ecbDec K c')).getD j 0 = (blocksOf (ecbDec K c)).getD j 0) ∧
    (blocksOf (ecbDec K c')).getD i 0 = blockDec K ((blocksOf c').getD i 0) ∧
    (blocksOf (ecbDec K c')).getD i 0 ≠ (blocksOf (ecbDec K c)).getD i 0 ∧
    (∀ j, j ≠ i → j ≠ i + 1 → (blocksOf (cbcDec K iv c')).getD j 0 = (blocksOf (cbcDec K iv c)).getD j 0) ∧
    (i + 1 < c.length / 8 →
      (blocksOf (cbcDec K iv c')).getD (i + 1) 0 = (blocksOf (cbcDec K iv c)).getD (i + 1) 0 ^^^ δ) ∧
    (blocksOf (cbcDec K iv c')).getD i 0 =
      blockDec K ((blocksOf c').getD i 0) ^^^ (iv :: blocksOf c).getD i 0 ∧
    (blocksOf (cbcDec K iv c')).getD i 0 ≠ (blocksOf (cbcDec K iv c)).getD i 0

/-- Two instances one after the other, ECB without padding on 8 bytes: the composition of the two block transforms,
undone by the two decryptions in reverse order (44_chaining_padding.md R177). -/
def Obligations.DoubleEncryptionComposes : Prop :=
  ∀ (K1 K2 : SubkeyFile) (m : List Byte), m.length = 8 →
    ecbEnc K2 (ecbEnc K1 m) = blockBytes (blockEnc K2 (blockEnc K1 (toBlock m))) ∧
    ecbDec K1 (ecbDec K2 (ecbEnc K2 (ecbEnc K1 m))) = m

/-! ### ENCRYPT and DECRYPT -/

/-- ENCRYPT, whole: the two errors in order of test, and the delivery of the chained, possibly padded message
(44_chaining_padding.md R163). -/
def Obligations.EncryptFollowsItsRule : Prop :=
  ∀ s : State,
    (s.cfg.valid = false → ∃ t, exec .encrypt s = .next t ∧ Raised .notConstructed s t) ∧
    (s.cfg.valid = true → s.cfg.pad = .none → s.inBuf.len % 8 ≠ 0 →
      ∃ t, exec .encrypt s = .next t ∧ Raised .invalidBlockLength s t) ∧
    (s.cfg.valid = true → s.cfg.pad = .none → s.inBuf.len % 8 = 0 →
      ∃ t, exec .encrypt s = .next t ∧
        Delivered (match s.cfg.mode with | .ecb => ecbEnc s.k s.message | .cbc => cbcEnc s.k s.ivr s.message) s t) ∧
    (s.cfg.valid = true → s.cfg.pad = .pkcs5 →
      ∃ t, exec .encrypt s = .next t ∧
        Delivered (match s.cfg.mode with
          | .ecb => ecbEnc s.k (padMessage s.message)
          | .cbc => cbcEnc s.k s.ivr (padMessage s.message)) s t)

/-- DECRYPT, whole: the two errors in order of test, the delivery of the chained message, unpadded under PKCS5, and
the one case with no outcome (44_chaining_padding.md R166, R172). -/
def Obligations.DecryptFollowsItsRule : Prop :=
  ∀ s : State,
    (s.cfg.valid = false → ∃ t, exec .decrypt s = .next t ∧ Raised .notConstructed s t) ∧
    (s.cfg.valid = true → s.inBuf.len % 8 ≠ 0 →
      ∃ t, exec .decrypt s = .next t ∧ Raised .invalidBlockLength s t) ∧
    (s.cfg.valid = true → s.cfg.pad = .none → s.inBuf.len % 8 = 0 →
      ∃ t, exec .decrypt s = .next t ∧
        Delivered (match s.cfg.mode with | .ecb => ecbDec s.k s.message | .cbc => cbcDec s.k s.ivr s.message) s t) ∧
    (s.cfg.valid = true → s.cfg.pad = .pkcs5 → s.inBuf.len % 8 = 0 → 0 < s.inBuf.len →
      ∃ bytes t, exec .decrypt s = .next t ∧
        unpadMessage unpadZero
          (match s.cfg.mode with | .ecb => ecbDec s.k s.message | .cbc => cbcDec s.k s.ivr s.message) = some bytes ∧
        Delivered bytes s t) ∧
    (s.cfg.valid = true → s.cfg.pad = .pkcs5 → s.inBuf.len = 0 → exec .decrypt s = .refused .unpadEmpty)

/-- The lengths of results (44_chaining_padding.md R174). The DECRYPT clause holds for this hardware's `UNPAD_ZERO`,
`keep` (log entry 8). -/
def Obligations.ResultLengths : Prop :=
  (∀ s t : State, exec .encrypt s = .next t → t.status = .ok →
    t.outBuf.len % 8 = 0 ∧ (s.cfg.pad = .none → t.outBuf.len = s.inBuf.len) ∧
    (s.cfg.pad = .pkcs5 → t.outBuf.len = s.inBuf.len + 8 - s.inBuf.len % 8 ∧ 8 ≤ t.outBuf.len ∧
      s.inBuf.len < t.outBuf.len ∧ t.outBuf.len ≤ s.inBuf.len + 8)) ∧
  ∀ s t : State, exec .decrypt s = .next t → t.status = .ok →
    (s.cfg.pad = .none → t.outBuf.len = s.inBuf.len) ∧
    (s.cfg.pad = .pkcs5 → ∃ n : Byte, (chainDec s.cfg.mode s.k s.ivr s.message).getLast? = some n ∧
      t.outBuf.len = s.inBuf.len - min n.toNat s.inBuf.len)

/-- Round trip at command level, any key, mode, padding and IV: DECRYPT of ENCRYPT's result delivers the original
message, and without padding ENCRYPT of DECRYPT's result delivers the ciphertext; with PKCS5 in general it does not
(44_chaining_padding.md R178). -/
def Obligations.CommandRoundTrip : Prop :=
  (∀ s t : State, exec .encrypt s = .next t → t.status = .ok →
    ∃ u, exec .decrypt { t with inBuf := t.inBuf.load t.outBytes } = .next u ∧ u.status = .ok ∧
      u.outBytes = s.message) ∧
  (∀ s t : State, exec .decrypt s = .next t → t.status = .ok → s.cfg.pad = .none →
    ∃ u, exec .encrypt { t with inBuf := t.inBuf.load t.outBytes } = .next u ∧ u.status = .ok ∧
      u.outBytes = s.message) ∧
  ∃ s t u : State, s.cfg.pad = .pkcs5 ∧ exec .decrypt s = .next t ∧ t.status = .ok ∧
    exec .encrypt { t with inBuf := t.inBuf.load t.outBytes } = .next u ∧ u.status = .ok ∧ u.outBytes ≠ s.message

/-- No call influences a later one: after an ENCRYPT or DECRYPT, failed or not, every ENCRYPT or DECRYPT of every
message ends as it would have without it (44_chaining_padding.md R173, 43_block_transform.md R148, R149). -/
def Obligations.CallsDoNotInfluenceLaterCalls : Prop :=
  ∀ (i j : Instr) (s t : State) (msg : Buffer),
    (i = .encrypt ∨ i = .decrypt) → (j = .encrypt ∨ j = .decrypt) → exec i s = .next t →
    (∀ u, exec j { s with inBuf := msg } = .next u →
      ∃ v, exec j { t with inBuf := msg } = .next v ∧ v.status = u.status ∧ v.outBytes = u.outBytes) ∧
    ∀ r, exec j { s with inBuf := msg } = .refused r → exec j { t with inBuf := msg } = .refused r

/-- ENCRYPT and DECRYPT read neither `KEYBUF` nor `IVBUF`: the key is not state, and the IV was captured at CONSTRUCT
(10_state.md R23, R29). That the bytes of `OUT` at and beyond `OUTLEN` are the same too is the model's choice (log entry
5). -/
def Obligations.KeyAndIvBuffersAreDeadAfterConstruct : Prop :=
  ∀ (i : Instr) (s t : State) (kb ib : Buffer), (i = .encrypt ∨ i = .decrypt) → exec i s = .next t →
    exec i { s with keyBuf := kb, ivBuf := ib } = .next { t with keyBuf := kb, ivBuf := ib }

/-! ### What the spec leaves unspecified is never observed -/

/-- `K`, `MODE`, `PAD` and `IVR` where they are unspecified, and the bytes of `OUT` nothing has written since the last
command: two cores that differ only in these, with the same `CMD`, operand buffers and lengths, give the host the same
`STATUS`, the same `OUTLEN` and the same bytes `OUT[0 .. OUTLEN-1]` through every sequence of host actions in which the
host does not write `OUTLEN` alone; through every sequence at all they still differ only in these; and every command
makes the bytes the same again (10_state.md R31, R33, 20_memory.md R43, 60_exceptions.md R205). A host that writes
`OUTLEN` alone (log entry 21) may so bring unspecified bytes of `OUT` into its reach. Of `CMD`, the operand buffers and
their lengths, which R31 leaves unspecified at reset too and which a command may observe, it says nothing: see
UnspecifiedOperandsAreNeverObservedOnceLoaded. -/
def Obligations.UnspecifiedStateIsNeverObserved : Prop :=
  (∀ (es : List HostEvent) (s t : State), SameForHost s t → (∀ n, .setLength .out n ∉ es) →
    SameOutcome SameForHost (runEvents es s) (runEvents es t)) ∧
  (∀ (es : List HostEvent) (s t : State), SameSpecified s t →
    SameOutcome SameSpecified (runEvents es s) (runEvents es t)) ∧
  ∀ s t : State, SameSpecified s t → SameOutcome SameForHost (step s) (step t)

/-- Two cores with the same lengths and the same bytes within them, whatever `CMD` and the bytes beyond hold, give the
host the same through every sequence of host actions that writes no length register alone. So nothing that 10_state.md
R31 leaves unspecified at reset, `CMD`, `KEYBUF`, `KEYLEN`, `IVBUF`, `IVLEN`, `IN` and `INLEN` included, is observed once
the host has loaded the three operand buffers (10_state.md R31, 20_memory.md R42, R43). Before that an unspecified length
is observed (log entry 3), and a length written alone may bring unspecified bytes within it (log entries 20, 21). `draws`
is the model's own and numbers the free values (log entry 7). -/
def Obligations.UnspecifiedOperandsAreNeverObservedOnceLoaded : Prop :=
  (∀ (es : List HostEvent) (s t : State), SameWithinLengths s t → (∀ b n, .setLength b n ∉ es) →
    SameOutcome SameWithinLengths (runEvents es s) (runEvents es t)) ∧
  ∀ (es : List HostEvent) (s : State) (key iv msg : List Byte), (∀ b n, .setLength b n ∉ es) →
    s.cfg.valid = false → s.status = .ok → s.outBuf.len = 0 → s.draws = State.reset.draws →
    SameOutcome SameWithinLengths
      (runEvents ([.load .key key, .load .iv iv, .load .inp msg] ++ es) State.reset)
      (runEvents ([.load .key key, .load .iv iv, .load .inp msg] ++ es) s)

/-- The values the model names for `K`, `MODE`, `PAD` and `IVR` at reset (log entry 2, DESIGN CHOICE) never matter:
with any others in their place the host sees the same (10_state.md R31). -/
def Obligations.ResetValuesNeverMatter : Prop :=
  ∀ (es : List HostEvent) (k : SubkeyFile) (mode : Mode) (pad : Padding) (iv : Block),
    SameOutcome SameForHost (runEvents es State.reset)
      (runEvents es { State.reset with k := k, cfg := ⟨false, mode, pad⟩, ivr := iv })
end

