-- ==== Sys2Proof/Laws/Bits.lean ====
section
/-! SUPPORT. Bit sequences, byte sequences and blocks, and what the permutation engine does to one bit. -/

namespace Sys2Proof.Machine

/-- Two sequences with the same bits at positions `1..w` are equal (00_scope.md R10). -/
theorem eq_of_bitAt {w : Nat} {s t : BitVec w} (h : ∀ p, 1 ≤ p → p ≤ w → bitAt s p = bitAt t p) : s = t := by
  apply BitVec.eq_of_getMsbD_eq
  intro i hi
  simpa [bitAt] using h (i + 1) (by omega) (by omega)

/-- Position `p` of a concatenation (00_scope.md R10). -/
theorem bitAt_append {v w : Nat} (s : BitVec v) (t : BitVec w) (p : Nat) (h : 1 ≤ p) :
    bitAt (s ++ t) p = if p ≤ v then bitAt s p else bitAt t (p - v) := by
  have e : p - 1 - v = p - v - 1 := by omega
  by_cases hp : p ≤ v
  · have h1 : ¬ v ≤ p - 1 := by omega
    simp [bitAt, BitVec.getMsbD_append, hp, h1]
  · have h1 : v ≤ p - 1 := by omega
    simp [bitAt, BitVec.getMsbD_append, hp, h1, e]

/-- Position `p` of a slice (00_scope.md R10). -/
theorem bitAt_slice {w : Nat} (s : BitVec w) (a n p : Nat) (ha : 1 ≤ a) (hn : a + n ≤ w + 1) (h1 : 1 ≤ p) (h2 : p ≤ n) :
    bitAt (slice s a n) p = bitAt s (a + p - 1) := by
  have e1 : p - 1 < n := by omega
  have e2 : a + p - 1 - 1 < w := by omega
  have e3 : n - 1 - (p - 1) < n := by omega
  have e4 : w + 1 - (a + n) + (n - 1 - (p - 1)) = w - 1 - (a + p - 1 - 1) := by omega
  simp [bitAt, slice, BitVec.getMsbD, e1, e2, e3, e4]

/-- Position `p` of an exclusive-or (00_scope.md R10). -/
@[simp] theorem bitAt_xor {w : Nat} (s t : BitVec w) (p : Nat) : bitAt (s ^^^ t) p = (bitAt s p ^^ bitAt t p) := by
  simp [bitAt]

/-- A number built bit by bit, most significant first, has the bits it was built from. -/
theorem testBit_foldl_bits (f : Nat → Bool) (l : List Nat) (acc i : Nat) (h : i < l.length) :
    (l.foldl (fun acc t => 2 * acc + (f t).toNat) acc).testBit i = f (l[l.length - 1 - i]'(by omega)) := by
  induction l using List.reverseRecOn generalizing i with
  | nil => simp at h
  | append_singleton l x ih =>
    rw [List.foldl_append]
    cases i with
    | zero => cases hx : f x <;> simp [Nat.testBit, hx]
    | succ i =>
      have hi : i < l.length := by simpa using h
      simp only [List.foldl_cons, List.foldl_nil, List.length_append, List.length_singleton]
      rw [Nat.testBit_succ]
      have e : (2 * l.foldl (fun acc t => 2 * acc + (f t).toNat) acc + (f x).toNat) / 2 =
          l.foldl (fun acc t => 2 * acc + (f t).toNat) acc := by
        have : (f x).toNat ≤ 1 := by cases f x <;> simp
        omega
      rw [e, ih i hi]
      congr 1
      rw [List.getElem_append_left (by omega)]
      congr 1
      omega

/-- The permutation engine: output bit `i` is input bit `T[i]` (40_permutation_engine.md R80). -/
theorem bitAt_permute {m w : Nat} (T : Vector Nat m) (s : BitVec w) (p : Nat) (h1 : 1 ≤ p) (h2 : p ≤ m) :
    bitAt (permute T s) p = bitAt s (T[p - 1]'(by omega)) := by
  have hlt : p - 1 < m := by omega
  have hl : m - 1 - (p - 1) < T.toList.length := by simp; omega
  have key := testBit_foldl_bits (fun t => bitAt s t) T.toList 0 (m - 1 - (p - 1)) hl
  have e : T.toList.length - 1 - (m - 1 - (p - 1)) = p - 1 := by simp; omega
  simp only [permute]
  rw [bitAt, BitVec.getMsbD]
  simp only [hlt, decide_true, Bool.true_and, BitVec.getLsbD_ofNat]
  have hm : m - 1 - (p - 1) < m := by omega
  simp only [hm, decide_true, Bool.true_and]
  rw [key]
  simp only [e]
  rw [Vector.getElem_toList]

end Sys2Proof.Machine
end

