-- ==== Sys2Proof/Laws/Blocks.lean ====
section
/-! SUPPORT. Bytes and blocks: the two conversions undo each other (00_scope.md R12, 44_chaining_padding.md R160). -/

namespace Sys2Proof.Machine

@[simp] theorem blockBytes_length (b : Block) : (blockBytes b).length = 8 := by simp [blockBytes, bitsToBytes]

/-- The number of a block made of eight bytes, byte 0 the most significant. -/
theorem toBlock_toNat (b0 b1 b2 b3 b4 b5 b6 b7 : Byte) :
    (toBlock [b0, b1, b2, b3, b4, b5, b6, b7]).toNat =
      256 * (256 * (256 * (256 * (256 * (256 * (256 * b0.toNat + b1.toNat) + b2.toNat) + b3.toNat) + b4.toNat)
        + b5.toNat) + b6.toNat) + b7.toNat := by
  simp [toBlock, bytesToBits, bytesToNat]
  omega

/-- The bytes of a block, most significant first. -/
theorem blockBytes_eq (b : Block) :
    blockBytes b = [b.extractLsb' 56 8, b.extractLsb' 48 8, b.extractLsb' 40 8, b.extractLsb' 32 8,
      b.extractLsb' 24 8, b.extractLsb' 16 8, b.extractLsb' 8 8, b.extractLsb' 0 8] := rfl

/-- `BitsToBytes` undoes `BytesToBits` on eight bytes (00_scope.md R12). -/
theorem blockBytes_toBlock (b0 b1 b2 b3 b4 b5 b6 b7 : Byte) :
    blockBytes (toBlock [b0, b1, b2, b3, b4, b5, b6, b7]) = [b0, b1, b2, b3, b4, b5, b6, b7] := by
  have h := toBlock_toNat b0 b1 b2 b3 b4 b5 b6 b7
  rw [blockBytes_eq]
  simp only [List.cons.injEq, and_true]
  refine ⟨?_, ?_, ?_, ?_, ?_, ?_, ?_, ?_⟩ <;>
    (apply BitVec.eq_of_toNat_eq; rw [BitVec.extractLsb'_toNat, h, Nat.shiftRight_eq_div_pow]; omega)

/-- `BytesToBits` undoes `BitsToBytes` on a block (00_scope.md R12). -/
theorem toBlock_blockBytes (b : Block) : toBlock (blockBytes b) = b := by
  rw [blockBytes_eq]
  apply BitVec.eq_of_toNat_eq
  rw [toBlock_toNat]
  simp only [BitVec.extractLsb'_toNat, Nat.shiftRight_eq_div_pow]
  omega

/-- One more block in front. -/
theorem blocksOf_append (b : Block) (rest : List Byte) : blocksOf (blockBytes b ++ rest) = b :: blocksOf rest := by
  conv_rhs => rw [← toBlock_blockBytes b]
  rw [blockBytes_eq]
  rfl

/-- Cutting what was put together (44_chaining_padding.md R160). -/
@[simp] theorem blocksOf_bytesOf (bs : List Block) : blocksOf (bytesOf bs) = bs := by
  induction bs with
  | nil => rfl
  | cons b bs ih => simpa [bytesOf] using (blocksOf_append b (bytesOf bs)).trans (by rw [ih])

/-- Putting together what was cut, for whole blocks (44_chaining_padding.md R160). -/
theorem bytesOf_blocksOf : (m : List Byte) → m.length % 8 = 0 → bytesOf (blocksOf m) = m
  | [], _ => rfl
  | b0 :: b1 :: b2 :: b3 :: b4 :: b5 :: b6 :: b7 :: rest, h => by
    have ih := bytesOf_blocksOf rest (by simp at h; omega)
    simp only [blocksOf, bytesOf, List.flatMap_cons] at ih ⊢
    rw [ih, blockBytes_toBlock]
    rfl
  | [_], h => by simp at h
  | [_, _], h => by simp at h
  | [_, _, _], h => by simp at h
  | [_, _, _, _], h => by simp at h
  | [_, _, _, _, _], h => by simp at h
  | [_, _, _, _, _, _], h => by simp at h
  | [_, _, _, _, _, _, _], h => by simp at h

@[simp] theorem bytesOf_length (bs : List Block) : (bytesOf bs).length = 8 * bs.length := by
  induction bs with
  | nil => rfl
  | cons b bs ih => simp [bytesOf] at ih ⊢; omega

/-- A sequence of `8N` bytes has `N` blocks. -/
theorem blocksOf_length (m : List Byte) (h : m.length % 8 = 0) : (blocksOf m).length = m.length / 8 := by
  have := bytesOf_length (blocksOf m)
  rw [bytesOf_blocksOf m h] at this
  omega

@[simp] theorem cbcEncBlocks_length (K : SubkeyFile) (cv : Block) (ms : List Block) :
    (cbcEncBlocks K cv ms).length = ms.length := by
  induction ms generalizing cv with
  | nil => rfl
  | cons m ms ih => simp [cbcEncBlocks, ih]

@[simp] theorem cbcDecBlocks_length (K : SubkeyFile) (cv : Block) (cs : List Block) :
    (cbcDecBlocks K cv cs).length = cs.length := by
  induction cs generalizing cv with
  | nil => rfl
  | cons c cs ih => simp [cbcDecBlocks, ih]

/-- Chaining keeps the length of whole blocks (44_chaining_padding.md R164, R165). -/
theorem chainEnc_length (mode : Mode) (K : SubkeyFile) (iv : Block) (m : List Byte) (h : m.length % 8 = 0) :
    (chainEnc mode K iv m).length = m.length := by
  have := blocksOf_length m h
  cases mode <;> simp [chainEnc, ecbEnc, cbcEnc] <;> omega

/-- Chaining keeps the length of whole blocks (44_chaining_padding.md R167, R168). -/
theorem chainDec_length (mode : Mode) (K : SubkeyFile) (iv : Block) (c : List Byte) (h : c.length % 8 = 0) :
    (chainDec mode K iv c).length = c.length := by
  have := blocksOf_length c h
  cases mode <;> simp [chainDec, ecbDec, cbcDec] <;> omega

/-- A padded message is whole blocks (44_chaining_padding.md R162). -/
theorem padMessage_length (m : List Byte) : (padMessage m).length = m.length + (8 - m.length % 8) := by
  simp [padMessage, padLength]

/-- Unpadding stops only on the empty sequence (44_chaining_padding.md R169 to R172). -/
theorem unpadMessage_eq_none (z : Config.UnpadZero) (m : List Byte) : unpadMessage z m = none ↔ m = [] := by
  unfold unpadMessage
  rcases h : m.getLast? with _ | n
  · simpa using h
  · have hm : m ≠ [] := by rintro rfl; simp at h
    simp only [hm, iff_false]
    split_ifs <;> (try cases z) <;> simp

end Sys2Proof.Machine
end

