-- ==== Sys2Proof/Laws/State.lean ====
section
/-! SUPPORT. One lemma per field per state update, so that no later proof unfolds a record update. -/

namespace Sys2Proof.Machine

variable (s : State)

@[simp] theorem raiseError_k (e : Status) : (raiseError e s).k = s.k := rfl
@[simp] theorem raiseError_cfg (e : Status) : (raiseError e s).cfg = s.cfg := rfl
@[simp] theorem raiseError_ivr (e : Status) : (raiseError e s).ivr = s.ivr := rfl
@[simp] theorem raiseError_status (e : Status) : (raiseError e s).status = e := rfl
@[simp] theorem raiseError_cmd (e : Status) : (raiseError e s).cmd = s.cmd := rfl
@[simp] theorem raiseError_keyBuf (e : Status) : (raiseError e s).keyBuf = s.keyBuf := rfl
@[simp] theorem raiseError_ivBuf (e : Status) : (raiseError e s).ivBuf = s.ivBuf := rfl
@[simp] theorem raiseError_inBuf (e : Status) : (raiseError e s).inBuf = s.inBuf := rfl
@[simp] theorem raiseError_outBuf (e : Status) : (raiseError e s).outBuf = outBufferOf [] s.draws := rfl
@[simp] theorem raiseError_draws (e : Status) : (raiseError e s).draws = s.draws + 1 := rfl

@[simp] theorem deliver_k (bytes : List Byte) : (deliver bytes s).k = s.k := rfl
@[simp] theorem deliver_cfg (bytes : List Byte) : (deliver bytes s).cfg = s.cfg := rfl
@[simp] theorem deliver_ivr (bytes : List Byte) : (deliver bytes s).ivr = s.ivr := rfl
@[simp] theorem deliver_status (bytes : List Byte) : (deliver bytes s).status = .ok := rfl
@[simp] theorem deliver_cmd (bytes : List Byte) : (deliver bytes s).cmd = s.cmd := rfl
@[simp] theorem deliver_keyBuf (bytes : List Byte) : (deliver bytes s).keyBuf = s.keyBuf := rfl
@[simp] theorem deliver_ivBuf (bytes : List Byte) : (deliver bytes s).ivBuf = s.ivBuf := rfl
@[simp] theorem deliver_inBuf (bytes : List Byte) : (deliver bytes s).inBuf = s.inBuf := rfl
@[simp] theorem deliver_outBuf (bytes : List Byte) : (deliver bytes s).outBuf = outBufferOf bytes s.draws := rfl
@[simp] theorem deliver_draws (bytes : List Byte) : (deliver bytes s).draws = s.draws + 1 := rfl

@[simp] theorem installInstance_k (K : SubkeyFile) (mode : Mode) (pad : Padding) (iv : Block) : (installInstance K mode pad iv s).k = K := rfl
@[simp] theorem installInstance_cfg (K : SubkeyFile) (mode : Mode) (pad : Padding) (iv : Block) : (installInstance K mode pad iv s).cfg = ⟨true, mode, pad⟩ := rfl
@[simp] theorem installInstance_ivr (K : SubkeyFile) (mode : Mode) (pad : Padding) (iv : Block) : (installInstance K mode pad iv s).ivr = iv := rfl
@[simp] theorem installInstance_status (K : SubkeyFile) (mode : Mode) (pad : Padding) (iv : Block) : (installInstance K mode pad iv s).status = .ok := rfl
@[simp] theorem installInstance_cmd (K : SubkeyFile) (mode : Mode) (pad : Padding) (iv : Block) : (installInstance K mode pad iv s).cmd = s.cmd := rfl
@[simp] theorem installInstance_keyBuf (K : SubkeyFile) (mode : Mode) (pad : Padding) (iv : Block) : (installInstance K mode pad iv s).keyBuf = s.keyBuf := rfl
@[simp] theorem installInstance_ivBuf (K : SubkeyFile) (mode : Mode) (pad : Padding) (iv : Block) : (installInstance K mode pad iv s).ivBuf = s.ivBuf := rfl
@[simp] theorem installInstance_inBuf (K : SubkeyFile) (mode : Mode) (pad : Padding) (iv : Block) : (installInstance K mode pad iv s).inBuf = s.inBuf := rfl
@[simp] theorem installInstance_outBuf (K : SubkeyFile) (mode : Mode) (pad : Padding) (iv : Block) : (installInstance K mode pad iv s).outBuf = outBufferOf [] s.draws := rfl
@[simp] theorem installInstance_draws (K : SubkeyFile) (mode : Mode) (pad : Padding) (iv : Block) : (installInstance K mode pad iv s).draws = s.draws + 1 := rfl

@[simp] theorem withFetchWord_k (nbits w : Nat) : (s.withFetchWord nbits w).k = s.k := rfl
@[simp] theorem withFetchWord_cfg (nbits w : Nat) : (s.withFetchWord nbits w).cfg = s.cfg := rfl
@[simp] theorem withFetchWord_ivr (nbits w : Nat) : (s.withFetchWord nbits w).ivr = s.ivr := rfl
@[simp] theorem withFetchWord_status (nbits w : Nat) : (s.withFetchWord nbits w).status = s.status := rfl
@[simp] theorem withFetchWord_cmd (nbits w : Nat) : (s.withFetchWord nbits w).cmd = BitVec.ofNat 8 (w % 2 ^ nbits) := rfl
@[simp] theorem withFetchWord_keyBuf (nbits w : Nat) : (s.withFetchWord nbits w).keyBuf = s.keyBuf := rfl
@[simp] theorem withFetchWord_ivBuf (nbits w : Nat) : (s.withFetchWord nbits w).ivBuf = s.ivBuf := rfl
@[simp] theorem withFetchWord_inBuf (nbits w : Nat) : (s.withFetchWord nbits w).inBuf = s.inBuf := rfl
@[simp] theorem withFetchWord_outBuf (nbits w : Nat) : (s.withFetchWord nbits w).outBuf = s.outBuf := rfl
@[simp] theorem withFetchWord_draws (nbits w : Nat) : (s.withFetchWord nbits w).draws = s.draws := rfl

@[simp] theorem onHostBuf_key_k (f : Buffer → Buffer) : (s.onHostBuf .key f).k = s.k := rfl
@[simp] theorem onHostBuf_key_cfg (f : Buffer → Buffer) : (s.onHostBuf .key f).cfg = s.cfg := rfl
@[simp] theorem onHostBuf_key_ivr (f : Buffer → Buffer) : (s.onHostBuf .key f).ivr = s.ivr := rfl
@[simp] theorem onHostBuf_key_status (f : Buffer → Buffer) : (s.onHostBuf .key f).status = s.status := rfl
@[simp] theorem onHostBuf_key_cmd (f : Buffer → Buffer) : (s.onHostBuf .key f).cmd = s.cmd := rfl
@[simp] theorem onHostBuf_key_keyBuf (f : Buffer → Buffer) : (s.onHostBuf .key f).keyBuf = f s.keyBuf := rfl
@[simp] theorem onHostBuf_key_ivBuf (f : Buffer → Buffer) : (s.onHostBuf .key f).ivBuf = s.ivBuf := rfl
@[simp] theorem onHostBuf_key_inBuf (f : Buffer → Buffer) : (s.onHostBuf .key f).inBuf = s.inBuf := rfl
@[simp] theorem onHostBuf_key_outBuf (f : Buffer → Buffer) : (s.onHostBuf .key f).outBuf = s.outBuf := rfl
@[simp] theorem onHostBuf_key_draws (f : Buffer → Buffer) : (s.onHostBuf .key f).draws = s.draws := rfl

@[simp] theorem onHostBuf_iv_k (f : Buffer → Buffer) : (s.onHostBuf .iv f).k = s.k := rfl
@[simp] theorem onHostBuf_iv_cfg (f : Buffer → Buffer) : (s.onHostBuf .iv f).cfg = s.cfg := rfl
@[simp] theorem onHostBuf_iv_ivr (f : Buffer → Buffer) : (s.onHostBuf .iv f).ivr = s.ivr := rfl
@[simp] theorem onHostBuf_iv_status (f : Buffer → Buffer) : (s.onHostBuf .iv f).status = s.status := rfl
@[simp] theorem onHostBuf_iv_cmd (f : Buffer → Buffer) : (s.onHostBuf .iv f).cmd = s.cmd := rfl
@[simp] theorem onHostBuf_iv_keyBuf (f : Buffer → Buffer) : (s.onHostBuf .iv f).keyBuf = s.keyBuf := rfl
@[simp] theorem onHostBuf_iv_ivBuf (f : Buffer → Buffer) : (s.onHostBuf .iv f).ivBuf = f s.ivBuf := rfl
@[simp] theorem onHostBuf_iv_inBuf (f : Buffer → Buffer) : (s.onHostBuf .iv f).inBuf = s.inBuf := rfl
@[simp] theorem onHostBuf_iv_outBuf (f : Buffer → Buffer) : (s.onHostBuf .iv f).outBuf = s.outBuf := rfl
@[simp] theorem onHostBuf_iv_draws (f : Buffer → Buffer) : (s.onHostBuf .iv f).draws = s.draws := rfl

@[simp] theorem onHostBuf_inp_k (f : Buffer → Buffer) : (s.onHostBuf .inp f).k = s.k := rfl
@[simp] theorem onHostBuf_inp_cfg (f : Buffer → Buffer) : (s.onHostBuf .inp f).cfg = s.cfg := rfl
@[simp] theorem onHostBuf_inp_ivr (f : Buffer → Buffer) : (s.onHostBuf .inp f).ivr = s.ivr := rfl
@[simp] theorem onHostBuf_inp_status (f : Buffer → Buffer) : (s.onHostBuf .inp f).status = s.status := rfl
@[simp] theorem onHostBuf_inp_cmd (f : Buffer → Buffer) : (s.onHostBuf .inp f).cmd = s.cmd := rfl
@[simp] theorem onHostBuf_inp_keyBuf (f : Buffer → Buffer) : (s.onHostBuf .inp f).keyBuf = s.keyBuf := rfl
@[simp] theorem onHostBuf_inp_ivBuf (f : Buffer → Buffer) : (s.onHostBuf .inp f).ivBuf = s.ivBuf := rfl
@[simp] theorem onHostBuf_inp_inBuf (f : Buffer → Buffer) : (s.onHostBuf .inp f).inBuf = f s.inBuf := rfl
@[simp] theorem onHostBuf_inp_outBuf (f : Buffer → Buffer) : (s.onHostBuf .inp f).outBuf = s.outBuf := rfl
@[simp] theorem onHostBuf_inp_draws (f : Buffer → Buffer) : (s.onHostBuf .inp f).draws = s.draws := rfl

@[simp] theorem onHostBuf_out_k (f : Buffer → Buffer) : (s.onHostBuf .out f).k = s.k := rfl
@[simp] theorem onHostBuf_out_cfg (f : Buffer → Buffer) : (s.onHostBuf .out f).cfg = s.cfg := rfl
@[simp] theorem onHostBuf_out_ivr (f : Buffer → Buffer) : (s.onHostBuf .out f).ivr = s.ivr := rfl
@[simp] theorem onHostBuf_out_status (f : Buffer → Buffer) : (s.onHostBuf .out f).status = s.status := rfl
@[simp] theorem onHostBuf_out_cmd (f : Buffer → Buffer) : (s.onHostBuf .out f).cmd = s.cmd := rfl
@[simp] theorem onHostBuf_out_keyBuf (f : Buffer → Buffer) : (s.onHostBuf .out f).keyBuf = s.keyBuf := rfl
@[simp] theorem onHostBuf_out_ivBuf (f : Buffer → Buffer) : (s.onHostBuf .out f).ivBuf = s.ivBuf := rfl
@[simp] theorem onHostBuf_out_inBuf (f : Buffer → Buffer) : (s.onHostBuf .out f).inBuf = s.inBuf := rfl
@[simp] theorem onHostBuf_out_outBuf (f : Buffer → Buffer) : (s.onHostBuf .out f).outBuf = f s.outBuf := rfl
@[simp] theorem onHostBuf_out_draws (f : Buffer → Buffer) : (s.onHostBuf .out f).draws = s.draws := rfl

@[simp] theorem outBufferOf_cells (bytes : List Byte) (fill : Nat) :
    (outBufferOf bytes fill).cells = Memory.setRange [] 0 bytes := rfl
@[simp] theorem outBufferOf_len (bytes : List Byte) (fill : Nat) : (outBufferOf bytes fill).len = bytes.length := rfl
@[simp] theorem outBufferOf_fill (bytes : List Byte) (fill : Nat) : (outBufferOf bytes fill).fill = fill := rfl

@[simp] theorem buf_key : s.buf .key = s.keyBuf := rfl
@[simp] theorem buf_iv : s.buf .iv = s.ivBuf := rfl
@[simp] theorem buf_inp : s.buf .inp = s.inBuf := rfl
@[simp] theorem buf_out : s.buf .out = s.outBuf := rfl

@[simp] theorem load_len (b : Buffer) (bytes : List Byte) : (b.load bytes).len = bytes.length := rfl
@[simp] theorem load_fill (b : Buffer) (bytes : List Byte) : (b.load bytes).fill = b.fill := rfl
@[simp] theorem load_cells (b : Buffer) (bytes : List Byte) :
    (b.load bytes).cells = Memory.setRange b.cells 0 bytes := rfl

/-- `raise e` leaves the instance and the operands alone (60_exceptions.md R204). -/
theorem raiseError_raised (e : Status) : Raised e s (raiseError e s) :=
  ⟨rfl, rfl, ⟨rfl, rfl, rfl⟩, ⟨rfl, rfl, rfl, rfl⟩⟩

/-- A successful CONSTRUCT replaces the instance and leaves the operands alone (44_chaining_padding.md R161). -/
theorem installInstance_constructed (key : Block) (mode : Mode) (pad : Padding) (iv : Block) :
    Constructed key mode pad s (installInstance (keySched key) mode pad iv s) :=
  ⟨installInstance_status .., installInstance_outBuf .. ▸ rfl, installInstance_k .., installInstance_cfg ..,
    ⟨installInstance_cmd .., installInstance_keyBuf .., installInstance_ivBuf .., installInstance_inBuf ..⟩⟩

end Sys2Proof.Machine
end

