-- ==== Sys2Proof/Laws/Memory.lean ====
section
/-! SUPPORT. The buffers: read after write, and that every operation keeps the canonical form. -/

namespace Sys2Proof.Machine

/-- Read after write: the byte written, and every other byte as before. -/
theorem Memory.get?_set (mem : Memory) (a : Nat) (v : Byte) (b : Nat) :
    Memory.get? (Memory.set mem a v) b = if b = a then some v else Memory.get? mem b := by
  induction mem with
  | nil => simp only [Memory.set, Memory.get?, eq_comm]
  | cons c rest ih =>
    by_cases h1 : a < c.1
    · simp only [Memory.set, h1, if_true, Memory.get?, eq_comm]
    · by_cases h2 : a = c.1
      · by_cases h3 : b = a
        · simp [Memory.set, h2, h3, Memory.get?]
        · have h4 : c.1 ≠ b := fun h => h3 (h2 ▸ h.symm)
          simp [Memory.set, h2, Memory.get?, h4, h4.symm]
      · by_cases h3 : c.1 = b
        · have h4 : ¬ b = a := fun h => h2 (h ▸ h3.symm)
          rw [Memory.set, if_neg h1, if_neg h2]
          simp only [Memory.get?, h3, if_true, h4, if_false]
        · simp only [Memory.set, h1, h2, if_false, Memory.get?, h3, ih]

/-- Read after a range write: byte `b - off` of the range inside it, as before outside. -/
theorem Memory.get?_setRange (vs : List Byte) (mem : Memory) (off b : Nat) :
    Memory.get? (Memory.setRange mem off vs) b =
      if off ≤ b ∧ b < off + vs.length then vs[b - off]? else Memory.get? mem b := by
  induction vs generalizing mem off with
  | nil => simp [Memory.setRange]
  | cons v vs ih =>
    rw [Memory.setRange, ih, Memory.get?_set, List.length_cons]
    by_cases h1 : b = off
    · subst h1; simp
    · by_cases h2 : off ≤ b ∧ b < off + (vs.length + 1)
      · have h3 : off + 1 ≤ b ∧ b < off + 1 + vs.length := by omega
        have h4 : b - off = (b - (off + 1)) + 1 := by omega
        rw [if_pos h2, if_pos h3, h4, List.getElem?_cons_succ]
      · have h3 : ¬(off + 1 ≤ b ∧ b < off + 1 + vs.length) := by omega
        rw [if_neg h2, if_neg h3, if_neg h1]

/-- A byte of a list delivered from index 0. -/
theorem Memory.get?_setRange_nil (vs : List Byte) (b : Nat) : Memory.get? (Memory.setRange [] 0 vs) b = vs[b]? := by
  rw [Memory.get?_setRange]
  by_cases h : b < vs.length
  · simp [h]
  · simp [h, Memory.get?]

/-- The canonical form, said of the head. -/
theorem Memory.wf_cons (c : Host.Cell) (rest : Memory) :
    Memory.wf (c :: rest) = true ↔ (∀ d ∈ rest.head?, c.1 < d.1) ∧ Memory.wf rest = true := by
  cases rest <;> simp [Memory.wf]

/-- Writing one byte keeps the canonical form. -/
theorem Memory.wf_set (mem : Memory) (a : Nat) (v : Byte) (h : Memory.wf mem = true) :
    Memory.wf (Memory.set mem a v) = true := by
  induction mem with
  | nil => rfl
  | cons c rest ih =>
    obtain ⟨h1, h2⟩ := (Memory.wf_cons c rest).mp h
    simp only [Memory.set]
    split_ifs with h3 h4
    · exact (Memory.wf_cons _ _).mpr ⟨by simp [h3], h⟩
    · exact (Memory.wf_cons _ _).mpr ⟨by simpa [h4] using h1, h2⟩
    · refine (Memory.wf_cons _ _).mpr ⟨?_, ih h2⟩
      cases rest with
      | nil => simp [Memory.set]; omega
      | cons d rest =>
        simp only [Memory.set]
        split_ifs <;> simp_all
        omega

/-- Writing a range keeps the canonical form. -/
theorem Memory.wf_setRange (vs : List Byte) (mem : Memory) (off : Nat) (h : Memory.wf mem = true) :
    Memory.wf (Memory.setRange mem off vs) = true := by
  induction vs generalizing mem off with
  | nil => exact h
  | cons v vs ih => exact ih _ _ (Memory.wf_set mem off v h)

/-- Delivered bytes are in canonical form. -/
theorem outBufferOf_wf (bytes : List Byte) (fill : Nat) : Memory.wf (outBufferOf bytes fill).cells = true :=
  Memory.wf_setRange bytes [] 0 rfl

/-- Loading a buffer keeps the canonical form. -/
theorem load_wf (b : Buffer) (bytes : List Byte) (h : Memory.wf b.cells = true) :
    Memory.wf (b.load bytes).cells = true :=
  Memory.wf_setRange bytes b.cells 0 h

/-- Reset's buffers are in canonical form. -/
theorem reset_canonical (b : BufId) : Memory.wf (State.reset.buf b).cells = true := by cases b <;> rfl

/-- `OUT` lists exactly the delivered indexes. -/
theorem outBufferOf_listed (bytes : List Byte) (fill i : Nat) :
    (Memory.get? (outBufferOf bytes fill).cells i).isSome = true ↔ i < bytes.length := by
  simp [Memory.get?_setRange_nil]

/-- A delivered byte of `OUT`. -/
theorem outBufferOf_read (bytes : List Byte) (fill i : Nat) (h : i < bytes.length) :
    (outBufferOf bytes fill).read i = bytes[i] := by
  simp [Buffer.read, Memory.get?_setRange_nil, h]

/-- A byte of a loaded buffer. -/
theorem load_read (b : Buffer) (bytes : List Byte) (i : Nat) (h : i < bytes.length) :
    (b.load bytes).read i = bytes[i] := by
  simp [Buffer.read, Memory.get?_setRange, h]

@[simp] theorem readRange_length (b : Buffer) (off n : Nat) : (b.readRange off n).length = n := by
  simp [Buffer.readRange]

/-- Byte `i` of a range read. -/
theorem readRange_getElem (b : Buffer) (off n i : Nat) (h : i < (b.readRange off n).length) :
    (b.readRange off n)[i] = b.read (off + i) := by
  simp [Buffer.readRange]

/-- A byte beyond the ones loaded reads as before. -/
theorem load_read_beyond (b : Buffer) (bytes : List Byte) (i : Nat) (h : bytes.length ≤ i) :
    (b.load bytes).read i = b.read i := by
  simp [Buffer.read, Memory.get?_setRange, not_lt.mpr h]

/-- The buffers after the host changed one. -/
theorem onHostBuf_buf (s : State) (b : BufId) (f : Buffer → Buffer) (c : BufId) :
    (s.onHostBuf b f).buf c = if c = b then f (s.buf c) else s.buf c := by
  cases b <;> cases c <;> rfl

/-- The host's change of one buffer leaves everything else as it was. -/
theorem onHostBuf_only (s : State) (b : BufId) (f : Buffer → Buffer) :
    OnlyBufferChanged b s (s.onHostBuf b f) where
  others c h := by rw [onHostBuf_buf, if_neg h]
  cmd := by cases b <;> rfl
  status := by cases b <;> rfl
  inst := by cases b <;> exact ⟨rfl, rfl, rfl⟩

/-- A buffer reads back the list it was loaded with. -/
theorem load_readRange (b : Buffer) (bytes : List Byte) : (b.load bytes).readRange 0 bytes.length = bytes := by
  apply List.ext_getElem (by simp)
  intro i _ h
  simpa [readRange_getElem] using load_read b bytes i h

/-- `OUT` reads back what was delivered. -/
theorem outBufferOf_readRange (bytes : List Byte) (fill : Nat) :
    (outBufferOf bytes fill).readRange 0 bytes.length = bytes := by
  apply List.ext_getElem (by simp)
  intro i _ h
  simpa [readRange_getElem] using outBufferOf_read bytes fill i h

/-- The result of a delivery is the bytes delivered. -/
@[simp] theorem deliver_outBytes (bytes : List Byte) (s : State) : (deliver bytes s).outBytes = bytes :=
  outBufferOf_readRange bytes s.draws

/-- A delivery does what a successful call does (44_chaining_padding.md R163, R166). -/
theorem deliver_delivered (bytes : List Byte) (s : State) : Delivered bytes s (deliver bytes s) :=
  ⟨rfl, rfl, fun i h => outBufferOf_read bytes s.draws i h, ⟨rfl, rfl, rfl⟩, ⟨rfl, rfl, rfl, rfl⟩⟩

end Sys2Proof.Machine
end

