-- ==== Sys2Proof/Laws/PerInstr.lean ====
section
/-! SUPPORT. Statements made per command: each command's word lies in its row of the opcode table. -/

namespace Sys2Proof.Laws.OpcodeRow

/-- The bits a command's row of spec/opcode_table.json fixes, as (mask, match) (30_encoding.md R62, R63, R64). -/
def row : Instr → Byte × Byte
  | .construct _ _ => (0xF3#8, 0x00#8)
  | .encrypt => (0xFF#8, 0x01#8)
  | .decrypt => (0xFF#8, 0x02#8)

/-- The command is well formed, its word matches its row, and the decoder reads the command back from it. -/
def Statement (i : Instr) : Prop :=
  i.wf = true ∧ encode i &&& (row i).1 = (row i).2 ∧ decode (encode i) = .ok i

theorem construct (mode : Mode) (pad : Padding) : Statement (.construct mode pad) := by
  cases mode <;> cases pad <;> exact ⟨rfl, rfl, rfl⟩

theorem encrypt : Statement .encrypt := ⟨rfl, rfl, rfl⟩

theorem decrypt : Statement .decrypt := ⟨rfl, rfl, rfl⟩

end Sys2Proof.Laws.OpcodeRow
end

