-- ==== Sys2Proof/Laws/Step.lean ====
section
/-! SUPPORT. Once for each command and for the step: everything it can do, so that no proof unfolds it again. -/

namespace Sys2Proof.Machine

/-- A read within the buffer never stops (20_memory.md R42). -/
theorem memRead_eq_some (s : State) (b : BufId) (off n : Nat) (h : off + n ≤ (s.buf b).len) :
    memRead s b off n = some ((s.buf b).readRange off n) := if_pos h

/-- The message operand is always there: it is read within `INLEN`. -/
@[simp] theorem messageOperand_eq (s : State) : messageOperand s = some s.message :=
  memRead_eq_some s .inp 0 s.inBuf.len (by simp)

/-- What CONSTRUCT leaves in `IVR`: the IV in CBC, a free value in ECB (10_state.md R23; log entry 6). -/
def ivAfterConstruct (mode : Mode) (s : State) : Block :=
  match mode with
  | .ecb => Config.freeBlock s.draws
  | .cbc => s.ivBlock

/-- CONSTRUCT, whole: its two errors in order, and its effect (44_chaining_padding.md R161). -/
theorem execConstruct_eq (mode : Mode) (pad : Padding) (s : State) :
    execConstruct mode pad s =
      if s.keyBuf.len ≠ 8 then .next (raiseError .invalidKeyLength s)
      else if mode = .cbc ∧ s.ivBuf.len ≠ 8 then .next (raiseError .invalidIVLength s)
      else .next (installInstance (keySched s.keyBlock) mode pad (ivAfterConstruct mode s) s) := by
  unfold execConstruct constructError
  split_ifs with h1 h2
  · rfl
  · rfl
  · have hk : keyOperand s = some s.keyBlock := by
      rw [keyOperand, memRead_eq_some s .key 0 8 (by simp; omega)]
      rfl
    have hi : ivOperand mode s = some (ivAfterConstruct mode s) := by
      cases mode with
      | ecb => rfl
      | cbc =>
        have : s.ivBuf.len = 8 := by simpa using h2
        rw [ivOperand, memRead_eq_some s .iv 0 8 (by simp [this])]
        rfl
    simp only [unlessError, withOperand, hk, hi]

/-- ENCRYPT, whole: its two errors in order, and its effect (44_chaining_padding.md R163). -/
theorem execEncrypt_eq (s : State) :
    execEncrypt s =
      if s.cfg.valid = false then .next (raiseError .notConstructed s)
      else if (padFor s.cfg.pad s.message).length % 8 ≠ 0 then .next (raiseError .invalidBlockLength s)
      else .next (deliver (chainEnc s.cfg.mode s.k s.ivr (padFor s.cfg.pad s.message)) s) := by
  unfold execEncrypt instanceError lengthError
  by_cases h1 : s.cfg.valid = false
  · simp [h1, unlessError]
  · by_cases h2 : (padFor s.cfg.pad s.message).length % 8 = 0 <;> simp [h1, h2, unlessError, withOperand]

/-- DECRYPT, whole: its two errors in order, its effect, and the one case without an outcome
(44_chaining_padding.md R166, R172). -/
theorem decryptWith_eq (z : Config.UnpadZero) (s : State) :
    decryptWith z s =
      if s.cfg.valid = false then .next (raiseError .notConstructed s)
      else if s.inBuf.len % 8 ≠ 0 then .next (raiseError .invalidBlockLength s)
      else match unpadFor z s.cfg.pad (chainDec s.cfg.mode s.k s.ivr s.message) with
        | some m => .next (deliver m s)
        | none => .refused .unpadEmpty := by
  unfold decryptWith instanceError lengthError
  by_cases h1 : s.cfg.valid = false
  · simp [h1, unlessError]
  · by_cases h2 : s.inBuf.len % 8 = 0
    · simp only [h1, h2, ne_eq, not_true_eq_false, if_false, unlessError, withOperand, messageOperand_eq]
      cases unpadFor z s.cfg.pad (chainDec s.cfg.mode s.k s.ivr s.message) <;> rfl
    · simp [h1, h2, unlessError]

/-- CONSTRUCT on a key of another length than 8 (60_exceptions.md R201). -/
theorem execConstruct_badKey (mode : Mode) (pad : Padding) {s : State} (hk : s.keyBuf.len ≠ 8) :
    execConstruct mode pad s = .next (raiseError .invalidKeyLength s) := by
  rw [execConstruct_eq, if_pos hk]

/-- CONSTRUCT in CBC on an IV of another length than 8 (60_exceptions.md R202). -/
theorem execConstruct_badIv (pad : Padding) {s : State} (hk : s.keyBuf.len = 8) (hi : s.ivBuf.len ≠ 8) :
    execConstruct .cbc pad s = .next (raiseError .invalidIVLength s) := by
  rw [execConstruct_eq, if_neg (not_not_intro hk), if_pos ⟨rfl, hi⟩]

/-- CONSTRUCT on a key and, in CBC, an IV of 8 bytes (44_chaining_padding.md R161). -/
theorem execConstruct_ok (mode : Mode) (pad : Padding) {s : State} (hk : s.keyBuf.len = 8)
    (hi : mode = .cbc → s.ivBuf.len = 8) :
    execConstruct mode pad s =
      .next (installInstance (keySched s.keyBlock) mode pad (ivAfterConstruct mode s) s) := by
  rw [execConstruct_eq, if_neg (not_not_intro hk), if_neg fun h => h.2 (hi h.1)]

/-- ENCRYPT without an instance (60_exceptions.md R205). -/
theorem execEncrypt_notConstructed {s : State} (hv : s.cfg.valid = false) :
    execEncrypt s = .next (raiseError .notConstructed s) := by
  rw [execEncrypt_eq, if_pos hv]

/-- ENCRYPT of a message that is no whole number of blocks (60_exceptions.md R203). -/
theorem execEncrypt_badLength {s : State} (hv : s.cfg.valid = true)
    (hl : (padFor s.cfg.pad s.message).length % 8 ≠ 0) :
    execEncrypt s = .next (raiseError .invalidBlockLength s) := by
  rw [execEncrypt_eq, if_neg (by simp [hv]), if_pos hl]

/-- ENCRYPT of whole blocks (44_chaining_padding.md R163). -/
theorem execEncrypt_ok {s : State} (hv : s.cfg.valid = true)
    (hl : (padFor s.cfg.pad s.message).length % 8 = 0) :
    execEncrypt s = .next (deliver (chainEnc s.cfg.mode s.k s.ivr (padFor s.cfg.pad s.message)) s) := by
  rw [execEncrypt_eq, if_neg (by simp [hv]), if_neg (not_not_intro hl)]

/-- DECRYPT without an instance (60_exceptions.md R205). -/
theorem decryptWith_notConstructed (z : Config.UnpadZero) {s : State} (hv : s.cfg.valid = false) :
    decryptWith z s = .next (raiseError .notConstructed s) := by
  rw [decryptWith_eq, if_pos hv]

/-- DECRYPT of a ciphertext that is no whole number of blocks (60_exceptions.md R203). -/
theorem decryptWith_badLength (z : Config.UnpadZero) {s : State} (hv : s.cfg.valid = true)
    (hl : s.inBuf.len % 8 ≠ 0) : decryptWith z s = .next (raiseError .invalidBlockLength s) := by
  rw [decryptWith_eq, if_neg (by simp [hv]), if_pos hl]

/-- DECRYPT of whole blocks (44_chaining_padding.md R166). -/
theorem decryptWith_ok (z : Config.UnpadZero) {s : State} {m : List Byte} (hv : s.cfg.valid = true)
    (hl : s.inBuf.len % 8 = 0) (hm : unpadFor z s.cfg.pad (chainDec s.cfg.mode s.k s.ivr s.message) = some m) :
    decryptWith z s = .next (deliver m s) := by
  rw [decryptWith_eq, if_neg (by simp [hv]), if_neg (not_not_intro hl)]
  simp only [hm]

/-- DECRYPT where unpadding has no outcome (44_chaining_padding.md R172). -/
theorem decryptWith_refused (z : Config.UnpadZero) {s : State} (hv : s.cfg.valid = true)
    (hl : s.inBuf.len % 8 = 0) (hm : unpadFor z s.cfg.pad (chainDec s.cfg.mode s.k s.ivr s.message) = none) :
    decryptWith z s = .refused .unpadEmpty := by
  rw [decryptWith_eq, if_neg (by simp [hv]), if_neg (not_not_intro hl)]
  simp only [hm]

/-- The message has `INLEN` bytes. -/
@[simp] theorem message_length (s : State) : s.message.length = s.inBuf.len := by simp [State.message]

/-- A message just loaded is the message (30_encoding.md R67). -/
@[simp] theorem message_load (s : State) (bytes : List Byte) :
    State.message { s with inBuf := s.inBuf.load bytes } = bytes := load_readRange _ _

/-- After an error nothing is delivered. -/
@[simp] theorem raiseError_outBytes (e : Status) (s : State) : (raiseError e s).outBytes = [] := by
  simp [State.outBytes, Buffer.readRange]

/-- Everything a step that answers a next state can have done: it raised an error, delivered a result of ENCRYPT or
DECRYPT on an instance, or installed an instance. -/
theorem step_cases {s t : State} (h : step s = .next t) :
    (∃ e, e ≠ .ok ∧ t = raiseError e s ∧
      (e = .notConstructed → s.cfg.valid = false) ∧ (e = .invalidBlockLength → s.cfg.valid = true)) ∨
    (∃ bytes, t = deliver bytes s ∧ s.cfg.valid = true) ∨
    (∃ mode pad, decode s.cmd = .ok (.construct mode pad) ∧ s.keyBuf.len = 8 ∧ (mode = .cbc → s.ivBuf.len = 8) ∧
      t = installInstance (keySched s.keyBlock) mode pad (ivAfterConstruct mode s) s) := by
  unfold step fetchWord at h
  rcases hd : decode s.cmd with e | i
  · simp only [hd, Host.Outcome.next.injEq] at h
    exact .inl ⟨.illegalCommand, by decide, h.symm, nofun, nofun⟩
  · simp only [hd] at h
    cases i with
    | construct mode pad =>
      rw [exec, execConstruct_eq] at h
      split_ifs at h with h1 h2
      · exact .inl ⟨_, by decide, (Host.Outcome.next.inj h).symm, nofun, nofun⟩
      · exact .inl ⟨_, by decide, (Host.Outcome.next.inj h).symm, nofun, nofun⟩
      · exact .inr (.inr ⟨mode, pad, rfl, by simpa using h1, by simpa using h2, (Host.Outcome.next.inj h).symm⟩)
    | encrypt =>
      rw [exec, execEncrypt_eq] at h
      split_ifs at h with h1 h2
      · exact .inl ⟨_, by decide, (Host.Outcome.next.inj h).symm, fun _ => h1, nofun⟩
      · exact .inl ⟨_, by decide, (Host.Outcome.next.inj h).symm, nofun, fun _ => by simpa using h1⟩
      · exact .inr (.inl ⟨_, (Host.Outcome.next.inj h).symm, by simpa using h1⟩)
    | decrypt =>
      rw [exec, execDecrypt, decryptWith_eq] at h
      split_ifs at h with h1 h2
      · exact .inl ⟨_, by decide, (Host.Outcome.next.inj h).symm, fun _ => h1, nofun⟩
      · exact .inl ⟨_, by decide, (Host.Outcome.next.inj h).symm, nofun, fun _ => by simpa using h1⟩
      · split at h
        · exact .inr (.inl ⟨_, (Host.Outcome.next.inj h).symm, by simpa using h1⟩)
        · cases h

/-- Outcomes alike by a relation are alike by a weaker one. -/
theorem SameOutcome.mono {R S : State → State → Prop} (h : ∀ s t, R s t → S s t)
    {o p : Host.Outcome State Fault Refusal} (ho : SameOutcome R o p) : SameOutcome S o p := by
  cases o <;> cases p <;> first | exact h _ _ ho | exact ho

/-- A relation that every allowed action of the host keeps is kept by every sequence of them. -/
theorem runEvents_related {R : State → State → Prop} {P : HostEvent → Prop}
    (step : ∀ e, P e → ∀ s t, R s t → SameOutcome R (hostStep e s) (hostStep e t)) :
    ∀ es, (∀ e ∈ es, P e) → ∀ s t, R s t → SameOutcome R (runEvents es s) (runEvents es t)
  | [], _, _, _, h => h
  | e :: es, hp, s, t, h => by
    have hh := step e (hp e List.mem_cons_self) s t h
    simp only [runEvents]
    rcases hs : hostStep e s with s1 | f | r <;> rcases ht : hostStep e t with t1 | f' | r' <;> rw [hs, ht] at hh
    · exact runEvents_related step es (fun e' h' => hp e' (List.mem_cons_of_mem _ h')) s1 t1 hh
    all_goals first | exact hh | exact hh.elim

/-- A property of every state that every allowed action of the host keeps is kept by every sequence of them. -/
theorem runEvents_keeps {I : State → Prop} {P : HostEvent → Prop}
    (step : ∀ e, P e → ∀ s t, I s → hostStep e s = .next t → I t) :
    ∀ es, (∀ e ∈ es, P e) → ∀ s t, I s → runEvents es s = .next t → I t
  | [], _, _, _, h, hr => Host.Outcome.next.inj hr ▸ h
  | e :: es, hp, s, t, h, hr => by
    simp only [runEvents] at hr
    rcases he : hostStep e s with u | f | r <;> rw [he] at hr
    · exact runEvents_keeps step es (fun e' h' => hp e' (List.mem_cons_of_mem _ h')) u t
        (step e (hp e List.mem_cons_self) s u h he) hr
    · cases hr
    · cases hr

end Sys2Proof.Machine
end

