-- ==== Sys2Proof/Tests/Slice0.lean ====
section
/-! SUPPORT. Checks of the model on fixed values, all of them from the spec's own examples and vectors, and one witness
for every statement that has hypotheses. -/

namespace Sys2Proof.Tests

set_option Elab.async false

open Sys2Proof Sys2Proof.Machine

/-! ### Helpers -/

/-- The key `DESCRYPT` (95_test_vectors.md V1). -/
def descrypt : Block := 0x4445534352595054#64

/-- The key of V10. -/
def keyV10 : Block := 0x133457799BBCDFF1#64

/-- `IV1` of 95_test_vectors.md 2.5. -/
def iv1 : Block := 0x0102030405060708#64

/-- A core that holds an instance, a message in `IN`, and a word in `CMD`. -/
def withInstance (mode : Mode) (pad : Padding) (key : Block) (msg : List Byte) (word : Byte) : State :=
  { State.reset with
    k := keySched key, cfg := ⟨true, mode, pad⟩, ivr := iv1, inBuf := State.reset.inBuf.load msg, cmd := word }

/-- A core after reset with a key and an IV loaded, and a word in `CMD`. -/
def withKey (key iv : List Byte) (word : Byte) : State :=
  { State.reset with keyBuf := State.reset.keyBuf.load key, ivBuf := State.reset.ivBuf.load iv, cmd := word }

/-- The state of an outcome. -/
def after : Host.Outcome State Fault Refusal → State
  | .next t => t
  | .fault _ => State.reset
  | .refused _ => State.reset

/-- The outcome is a next state. -/
def goesOn : Host.Outcome State Fault Refusal → Bool
  | .next _ => true
  | .fault _ => false
  | .refused _ => false

theorem eq_next_after {o : Host.Outcome State Fault Refusal} (h : goesOn o = true) : o = .next (after o) := by
  cases o with
  | next t => rfl
  | fault f => cases h
  | refused r => cases h

/-- The outcome is the refusal of the empty unpadding. -/
def isUnpadEmpty : Host.Outcome State Fault Refusal → Bool
  | .next _ => false
  | .fault _ => false
  | .refused r => r == .unpadEmpty

theorem eq_unpadEmpty {o : Host.Outcome State Fault Refusal} (h : isUnpadEmpty o = true) : o = .refused .unpadEmpty := by
  cases o with
  | next t => cases h
  | fault f => cases h
  | refused r => rw [beq_iff_eq.mp h]

/-- An instance made by this helper meets the invariant. -/
theorem withInstance_inv (mode : Mode) (pad : Padding) (key : Block) (msg : List Byte) (word : Byte) :
    (withInstance mode pad key msg word).Inv where
  canonical b := by
    cases b with
    | inp => exact load_wf State.reset.inBuf msg rfl
    | key => rfl
    | iv => rfl
    | out => rfl
  outListed i := by simp [withInstance, State.reset, Memory.get?]
  errorDeliversNothing _ := rfl
  notConstructed h := by cases h
  invalidBlockLength h := by cases h
  delivery _ := rfl
  subkeys _ := ⟨key, rfl⟩

/-- `ABCDEFGH` (95_test_vectors.md 2.5). -/
def abcdefgh : Block := 0x4142434445464748#64

/-- `01234567` (95_test_vectors.md V1). -/
def digits : Block := 0x3031323334353637#64

/-- The two digit blocks of V1. -/
def twoDigits : List Byte := blockBytes digits ++ blockBytes digits

/-! ### Well-formedness: an ill-formed term for each check -/

theorem test_wf_refuses_reserved_bits : CmdFields.reservedClear ⟨1#4, 0#1, 0#1, 0#2⟩ = false ∧
    CmdFields.wf ⟨1#4, 0#1, 0#1, 0#2⟩ = false := by decide

theorem test_wf_refuses_reserved_op : CmdFields.opKnown ⟨0#4, 0#1, 0#1, 3#2⟩ = false ∧
    CmdFields.wf ⟨0#4, 0#1, 0#1, 3#2⟩ = false := by decide

theorem test_wf_refuses_options_outside_construct :
    CmdFields.optionsAllowed ⟨0#4, 0#1, 1#1, 1#2⟩ = false ∧ CmdFields.wf ⟨0#4, 0#1, 1#1, 1#2⟩ = false ∧
    CmdFields.optionsAllowed ⟨0#4, 1#1, 0#1, 2#2⟩ = false ∧ CmdFields.wf ⟨0#4, 1#1, 0#1, 2#2⟩ = false := by decide

theorem test_wf_refuses_table_entries : permTableWf 3 #v[3, 1, 4] = false ∧ permTableWf 3 #v[0, 1, 2] = false := by
  decide

theorem test_wf_refuses_sbox_entries : sboxWf (Vector.replicate 64 16) = false := by decide

/-- The tables of the core are well formed with their widths (40_permutation_engine.md R81, R82). -/
theorem test_wf_tables : permTableWf 64 tablePC1 = true ∧ permTableWf 56 tablePC2 = true ∧
    permTableWf 64 tableIP = true ∧ permTableWf 64 tableFP = true ∧ permTableWf 32 tableE = true ∧
    permTableWf 32 tableP = true ∧ ∀ j : Fin 8, sboxWf (sboxTable j) = true := by decide +kernel

/-! ### Decoding: words written bit by bit from 30_encoding.md R61 to R66 -/

theorem test_decode_construct : decode 0b00001000#8 = .ok (.construct .ecb .pkcs5) ∧
    decode 0b00000100#8 = .ok (.construct .cbc .none) := ⟨rfl, rfl⟩

theorem test_decode_encrypt : decode 0b00000001#8 = .ok .encrypt := rfl

theorem test_decode_decrypt : decode 0b00000010#8 = .ok .decrypt := rfl

theorem test_decode_refuses : decode 0b00000011#8 = .error .reservedOp ∧ decode 0b00000101#8 = .error .optionBits ∧
    decode 0b00001010#8 = .error .optionBits ∧ decode 0b00010000#8 = .error .reservedBits ∧
    decode 0b11111111#8 = .error .reservedBits := ⟨rfl, rfl, rfl, rfl, rfl⟩

theorem test_table_words : decodeTableWord 8 0x0C = some (.construct .cbc .pkcs5) ∧
    decodeTableWord 8 0x02 = some .decrypt ∧ decodeTableWord 8 0x03 = none := by decide

theorem test_fetch_word : fetchWord (State.reset.withFetchWord 8 0x04) = 0x04#8 ∧
    decode (fetchWord State.reset) = .error .reservedBits := ⟨rfl, rfl⟩

/-- `STATUS` and `CFG` as bits (60_exceptions.md R200, 10_state.md R22; 95_test_vectors.md P2 step 2). -/
theorem test_codes : Status.code .illegalCommand = 5#3 ∧ Cfg.word ⟨true, .cbc, .none⟩ = 0b011#3 := by decide

/-! ### The operations: 95_test_vectors.md part 2 -/

/-- V5: byte 0 and the top bit first. -/
theorem test_bytes_to_bits :
    toBlock [0x01#8, 0x23#8, 0x45#8, 0x67#8, 0x89#8, 0xAB#8, 0xCD#8, 0xEF#8] = 0x0123456789ABCDEF#64 ∧
    blockBytes 0x8000000000000001#64 = [0x80#8, 0#8, 0#8, 0#8, 0#8, 0#8, 0#8, 0x01#8] ∧
    bitAt (toBlock [0x80#8, 0#8, 0#8, 0#8, 0#8, 0#8, 0#8, 0#8]) 1 = true := by decide +kernel

/-- V6: a table may reorder, repeat and drop. -/
theorem test_permute : permute #v[3, 1, 2] 0b100#3 = 0b010#3 ∧ permute #v[1, 1, 2] 0b10#2 = 0b110#3 ∧
    permute #v[2] 0b01#2 = 0b1#1 := by decide

/-- V7: one or two values of each table. -/
theorem test_tables : permute tableE 0xF0AAF0AA#32 = 0x7A15557A1555#48 ∧
    permute tableE 0x80000000#32 = 0x400000000001#48 ∧ permute tableP 0x5C82B597#32 = 0x234AA9BB#32 ∧
    permute tableIP 0x0123456789ABCDEF#64 = 0xCC00CCFFF0AAF0AA#64 ∧
    permute tableFP 0x0A4CD99543423234#64 = 0x85E813540F0AB405#64 ∧
    permute tablePC1 keyV10 = 0xF0CCAAF556678F#56 ∧
    permute tablePC2 0xE19955FAACCF1E#56 = 0x1B02EFFC7072#48 := by decide +kernel

/-- V15: the bit that leaves in front comes back at the end. -/
theorem test_rotl28 : rotl28 0xF0CCAAF#28 1 = 0xE19955F#28 ∧ rotl28 0x8000000#28 1 = 0x0000001#28 ∧
    rotl28 0x4000001#28 2 = 0x0000005#28 := by decide

/-- V10: the first and the last subkey, and `K[9]` after a one-bit round. -/
theorem test_key_schedule : subkeyReg (keySched keyV10) 1 = 0x1B02EFFC7072#48 ∧
    subkeyReg (keySched keyV10) 9 = 0xE0DBEBEDE781#48 ∧
    subkeyReg (keySched keyV10) 16 = 0xCB3D8B0E17F5#48 ∧ ksel .dec 1 = 16 := by decide +kernel

/-- V14: keys that differ in every parity position. -/
theorem test_parity : keySched keyV10 = keySched 0x123556789ABDDEF0#64 := by decide +kernel

/-- V32: row from the outer bits, column from the middle ones. -/
theorem test_sbox : sbox 0 0b011011#6 = 5#4 ∧ sbox 0 0b000001#6 = 0#4 ∧ sbox 0 0b100000#6 = 4#4 ∧
    sbox 3 0b101010#6 = 11#4 ∧ sbox 7 0b100110#6 = 1#4 := by decide +kernel

/-- V30 and V33. -/
theorem test_round_function : keyMix (expand 0xF0AAF0AA#32) 0x1B02EFFC7072#48 = 0x6117BA866527#48 ∧
    subst 0x6117BA866527#48 = 0x5C82B597#32 ∧ roundF 0xF0AAF0AA#32 0x1B02EFFC7072#48 = 0x234AA9BB#32 ∧
    roundF 0x80000000#32 0#48 = 0xD0585B9E#32 := by decide +kernel

/-- V20, V21: both directions, and round 15 of the first. -/
theorem test_block_transform : blockEnc (keySched keyV10) 0x0123456789ABCDEF#64 = 0x85E813540F0AB405#64 ∧
    blockDec (keySched keyV10) 0x85E813540F0AB405#64 = 0x0123456789ABCDEF#64 ∧
    halvesAfter (keySched keyV10) .enc 0x0123456789ABCDEF#64 15 = (0xC28C960D#32, 0x43423234#32) := by decide +kernel

/-- V23: known answers of other keys. -/
theorem test_block_known_answers : blockEnc (keySched 0#64) 0#64 = 0x8CA64DE9C1B123A7#64 ∧
    blockEnc (keySched 0x0123456789ABCDEF#64) 0x4E6F772069732074#64 = 0x3FA40E8A984D4815#64 ∧
    blockDec (keySched 0x8001010101010101#64) 0#64 = 0x1C29EEE68829F666#64 := by decide +kernel

/-- V41: the pad count of 5, 7 and 8 bytes. -/
theorem test_pad : padMessage ((blockBytes abcdefgh).take 5) = blockBytes 0x4142434445030303#64 ∧
    padMessage ((blockBytes abcdefgh).take 7) = blockBytes 0x4142434445464701#64 ∧
    padMessage (blockBytes abcdefgh) = blockBytes abcdefgh ++ blockBytes 0x0808080808080808#64 := by decide +kernel

/-- V50, V52, V55, V57, V58 on the block-decrypted column. -/
theorem test_unpad :
    unpadMessage unpadZero (blockBytes 0x4142434445464700#64) = some (blockBytes 0x4142434445464700#64) ∧
    unpadMessage .empty (blockBytes 0x4142434445464700#64) = some [] ∧
    unpadMessage .keep (blockBytes abcdefgh ++ blockBytes 0x4142434445464710#64) = some [] ∧
    unpadMessage .keep (blockBytes 0x4142434445464708#64) = some [] ∧
    unpadMessage .keep (blockBytes 0x4142434445464711#64) = some [] ∧ unpadMessage .keep [] = none := by
  decide +kernel

/-- V1, V40: the two chainings of the same message. -/
theorem test_chaining : ecbEnc (keySched descrypt) twoDigits =
      blockBytes 0xA9E2A12D00E039B7#64 ++ blockBytes 0xA9E2A12D00E039B7#64 ∧
    cbcEnc (keySched descrypt) iv1 twoDigits =
      blockBytes 0xEF8777AC89ED7B5E#64 ++ blockBytes 0xFD04C268A50E7888#64 ∧
    cbcDec (keySched descrypt) iv1 (blockBytes 0xEF8777AC89ED7B5E#64 ++ blockBytes 0xFD04C268A50E7888#64) =
      twoDigits := by decide +kernel

/-! ### One step of each command -/

/-- P2 step 2. -/
theorem test_construct_cbc_pkcs5 :
    let t := after (step (withKey (blockBytes descrypt) (blockBytes iv1) 0x0C#8))
    t.status = .ok ∧ t.cfg = ⟨true, .cbc, .pkcs5⟩ ∧ t.ivr = iv1 ∧ t.outBuf.len = 0 ∧
      subkeyReg t.k 1 = 0xB092CA202075#48 ∧ subkeyReg t.k 16 = 0xA192AA182881#48 := by decide +kernel

/-- V67: the key is tested first. -/
theorem test_construct_two_errors :
    let t := after (step (withKey [1#8, 2#8, 3#8, 4#8, 5#8, 6#8, 7#8] [1#8] 0x04#8))
    t.status = .invalidKeyLength ∧ t.cfg.valid = false := by decide +kernel

/-- P2 step 4. -/
theorem test_encrypt_cbc_pkcs5 :
    let t := after (step (withInstance .cbc .pkcs5 descrypt twoDigits 0x01#8))
    t.status = .ok ∧ t.outBuf.len = 24 ∧
      t.outBytes = blockBytes 0xEF8777AC89ED7B5E#64 ++ blockBytes 0xFD04C268A50E7888#64 ++
        blockBytes 0x310D838B9B6C75F9#64 := by decide +kernel

/-- V72: the error leaves the instance. -/
theorem test_encrypt_bad_length :
    let t := after (step (withInstance .ecb .none descrypt [1#8, 2#8, 3#8, 4#8, 5#8] 0x01#8))
    t.status = .invalidBlockLength ∧ t.outBuf.len = 0 ∧ t.cfg = ⟨true, .ecb, .none⟩ := by decide +kernel

/-- V54: three bytes are stripped, unchecked. -/
theorem test_decrypt_strips_unchecked :
    let t := after (step (withInstance .ecb .pkcs5 descrypt
      (blockBytes 0x6384D6C4DD5B64CE#64 ++ blockBytes 0x1B87455E877C9750#64) 0x02#8))
    t.status = .ok ∧ t.outBytes = blockBytes abcdefgh ++ [0x41#8, 0x42#8, 0x43#8, 0x44#8, 0x45#8] := by
  decide +kernel

/-- V58: the empty ciphertext under PKCS5 is refused. -/
theorem test_decrypt_refuses_empty :
    step (withInstance .ecb .pkcs5 descrypt [] 0x02#8) = .refused .unpadEmpty :=
  eq_unpadEmpty (by decide +kernel)

/-- V76: an illegal word. -/
theorem test_illegal_word :
    let t := after (step (withInstance .ecb .none descrypt [] 0x03#8))
    t.status = .illegalCommand ∧ t.outBuf.len = 0 ∧ t.cfg.valid = true := by decide +kernel

/-! ### Witnesses: every statement with hypotheses has a state and operands that meet them -/

theorem test_witness_DecodeInvertsEncode :
    Instr.wf (.construct .cbc .pkcs5) = true ∧ decode 0x0C#8 = .ok (.construct .cbc .pkcs5) := ⟨rfl, rfl⟩

theorem test_witness_IllegalWordsRaiseIllegalCommand :
    ({ State.reset with cmd := 0x03#8 } : State).cmd ∉ [0x00#8, 0x04#8, 0x08#8, 0x0C#8, 0x01#8, 0x02#8] ∧
    ({ State.reset with cmd := 0x0D#8 } : State).cmd ∉ [0x00#8, 0x04#8, 0x08#8, 0x0C#8, 0x01#8, 0x02#8] := by
  decide

theorem test_witness_StepRunsTheDecodedCommand :
    decode (withInstance .ecb .none descrypt twoDigits 0x01#8).cmd = .ok .encrypt := rfl

theorem test_witness_StepKeepsTheInvariant : ∃ s t : State, s.Inv ∧ s.cfg.valid = true ∧ step s = .next t :=
  ⟨withInstance .cbc .none descrypt twoDigits 0x01#8, _, withInstance_inv _ _ _ _ _, rfl,
    eq_next_after (by decide +kernel)⟩

/-- Both clauses: a run in which the host writes `OUT`, and one in which it does not. -/
theorem test_witness_HostRunsKeepTheInvariant :
    (∃ (es : List HostEvent) (s t : State), es.length = 2 ∧ s.HostInv ∧ runEvents es s = .next t ∧ ¬ t.Inv) ∧
    ∃ (es : List HostEvent) (s t : State), es.length = 3 ∧ s.Inv ∧ (∀ e ∈ es, e.writesOut = false) ∧
      runEvents es s = .next t :=
  ⟨⟨[.issue 0x01#8, .poke .out 9 0x55#8], withInstance .ecb .none descrypt [] 0x00#8, _, rfl,
      (withInstance_inv _ _ _ _ _).toHostInv, eq_next_after (by decide +kernel),
      fun h => absurd ((h.outListed 9).mp (by decide +kernel)) (by decide +kernel)⟩,
    ⟨[.load .inp (blockBytes digits), .issue 0x01#8, .reset], withInstance .ecb .none descrypt [] 0x00#8, _, rfl,
      withInstance_inv _ _ _ _ _, by decide +kernel, eq_next_after (by decide +kernel)⟩⟩

/-- A core in which the host raised `OUTLEN`, so that the whole invariant does not hold before the command. -/
theorem test_witness_EveryCommandMakesOutItsOwn : ∃ s t : State, s.HostInv ∧ ¬ s.Inv ∧ step s = .next t := by
  refine ⟨(withInstance .cbc .none descrypt twoDigits 0x01#8).onHostBuf .out fun b => { b with len := 3 }, _, ?_, ?_,
    eq_next_after (by decide +kernel)⟩
  · have h := (withInstance_inv .cbc .none descrypt twoDigits 0x01#8).toHostInv
    exact ⟨fun b => by rw [onHostBuf_buf]; split <;> exact h.canonical b, h.notConstructed, h.invalidBlockLength, h.subkeys⟩
  · exact fun h => absurd ((h.outListed 0).mpr (by decide)) (by decide)

theorem test_witness_StepStopsOnlyOnTheEmptyUnpad :
    (withInstance .cbc .pkcs5 descrypt [] 0x02#8).emptyUnpad ∧
    ¬ (withInstance .cbc .none descrypt [] 0x02#8).emptyUnpad :=
  ⟨⟨rfl, rfl, rfl, rfl⟩, fun h => by cases h.2.2.1⟩

theorem test_witness_FailedCommandChangesNothing : ∃ s t : State, step s = .next t ∧ t.status ≠ .ok :=
  ⟨withInstance .ecb .none descrypt [0#8] 0x01#8, _, eq_next_after (by decide +kernel), by decide +kernel⟩

theorem test_witness_OnlyConstructChangesTheInstance :
    (∃ s t : State, step s = .next t ∧ t.status = .ok ∧ t.cfg ≠ s.cfg) ∧
    ∃ s t : State, step s = .next t ∧ t.status = .ok ∧ SameInstance s t :=
  ⟨⟨withKey (blockBytes descrypt) [] 0x08#8, _, eq_next_after (by decide +kernel), by decide +kernel,
      by decide +kernel⟩,
    ⟨withInstance .ecb .none descrypt twoDigits 0x01#8, _, eq_next_after (by decide +kernel), by decide +kernel,
      ⟨by decide +kernel, by decide +kernel, by decide +kernel⟩⟩⟩

theorem test_witness_OperandBuffersAreNeverWritten : ∃ (i : Instr) (s t : State), exec i s = .next t ∧ BufId.inp ≠ .out :=
  ⟨.encrypt, withInstance .ecb .pkcs5 descrypt [1#8] 0x01#8, _, eq_next_after (by decide +kernel), by decide⟩

/-- One state for each error: V76, V60, V65, V70, V73. -/
theorem test_witness_ErrorsAreReportedExactlyForTheirCause :
    (after (step (withKey [] [] 0x03#8))).status = .illegalCommand ∧
    (after (step (withKey [1#8, 2#8, 3#8, 4#8, 5#8, 6#8, 7#8] [] 0x00#8))).status = .invalidKeyLength ∧
    (after (step (withKey (blockBytes descrypt) [1#8, 2#8, 3#8, 4#8, 5#8, 6#8, 7#8] 0x0C#8))).status =
      .invalidIVLength ∧
    (after (step (withKey [] [] 0x01#8))).status = .notConstructed ∧
    (after (step (withInstance .ecb .none descrypt (twoDigits.take 12) 0x02#8))).status = .invalidBlockLength := by
  decide +kernel

theorem test_witness_MemReadReturnsTheRange :
    7 + 1 ≤ ((withKey (blockBytes descrypt) [] 0x00#8).buf .key).len ∧
    ¬ 8 + 1 ≤ ((withKey (blockBytes descrypt) [] 0x00#8).buf .key).len := by decide +kernel

/-- For each clause: a key and an IV of 8 bytes, the last byte given and the first beyond. -/
theorem test_witness_HostLoadFillsOneBuffer : (blockBytes descrypt).length = 8 ∧ (blockBytes iv1).length = 8 ∧
    7 < (blockBytes descrypt).length ∧ (blockBytes descrypt).length ≤ 8 := by decide

theorem test_witness_HostWritesOneByteOrOneLength : (1 : Nat) ≠ 0 := by decide

/-- The host loads `OUT` and lowers `OUTLEN` (20_memory.md R49): it reads back what it wrote. -/
theorem test_host_writes_out :
    (after (runEvents [.load .out (blockBytes digits), .setLength .out 2] State.reset)).outBytes = [0x30#8, 0x31#8] := by
  decide +kernel

theorem test_witness_HostIssueRunsTheWord : decode 0x08#8 = .ok (.construct .ecb .pkcs5) ∧
    ∀ i, decode 0x03#8 ≠ .ok i := ⟨rfl, nofun⟩

/-- Keys of 7 and 9 bytes, an IV of 7 bytes under CBC, and both modes with what they need. -/
theorem test_witness_ConstructFollowsItsRule :
    (withKey ((blockBytes descrypt).take 7) [] 0x00#8).keyBuf.len ≠ 8 ∧
    (withKey (blockBytes descrypt ++ [0#8]) [] 0x00#8).keyBuf.len ≠ 8 ∧
    ((withKey (blockBytes descrypt) ((blockBytes iv1).take 7) 0x04#8).keyBuf.len = 8 ∧
      (withKey (blockBytes descrypt) ((blockBytes iv1).take 7) 0x04#8).ivBuf.len ≠ 8) ∧
    ((withKey (blockBytes descrypt) (blockBytes iv1) 0x04#8).keyBuf.len = 8 ∧
      (withKey (blockBytes descrypt) (blockBytes iv1) 0x04#8).ivBuf.len = 8) ∧
    (withKey (blockBytes descrypt) [] 0x00#8).keyBuf.len = 8 := by decide +kernel

theorem test_witness_SameKeySameCiphertext : ∃ s s' t t' u : State,
    exec (.construct .cbc .none) s = .next t ∧ exec (.construct .cbc .none) s' = .next t' ∧ t.status = .ok ∧
    t'.status = .ok ∧ s.keyBlock = s'.keyBlock ∧ s.ivBlock = s'.ivBlock ∧ s ≠ s' ∧
    exec .encrypt { t with inBuf := State.reset.inBuf.load twoDigits } = .next u :=
  ⟨withKey (blockBytes descrypt) (blockBytes iv1) 0x04#8,
    { withKey (blockBytes descrypt) (blockBytes iv1) 0x04#8 with k := keySched keyV10 }, _, _, _,
    eq_next_after (by decide +kernel), eq_next_after (by decide +kernel), by decide +kernel, by decide +kernel,
    by decide +kernel, by decide +kernel, by decide +kernel, eq_next_after (by decide +kernel)⟩

/-- The keys of V14. -/
theorem test_witness_ParityBitsAreDropped : keyV10 ≠ 0x123556789ABDDEF0#64 ∧
    ∀ p, 1 ≤ p → p ≤ 64 → p % 8 ≠ 0 → bitAt keyV10 p = bitAt 0x123556789ABDDEF0#64 p := by
  have h : ∀ p : Fin 65, p.val % 8 ≠ 0 → bitAt keyV10 p.val = bitAt 0x123556789ABDDEF0#64 p.val := by decide +kernel
  exact ⟨by decide, fun p _ h2 h3 => h ⟨p, by omega⟩ h3⟩

/-! Round numbers, positions and groups at both ends of their ranges. -/

theorem test_witness_KeyScheduleFollowsItsRule : (1 ≤ 1 ∧ 1 ≤ 16) ∧ (1 ≤ 16 ∧ 16 ≤ 16) := by decide

theorem test_witness_KeyHalvesRotateByRunningTotals : (1 ≤ 1 ∧ 1 ≤ 16) ∧ (1 ≤ 16 ∧ 16 ≤ 16) := by decide

theorem test_witness_SubkeysSelectKeyBits : (1 ≤ 1 ∧ 1 ≤ 16) ∧ (1 ≤ 16 ∧ 16 ≤ 16) := by decide

theorem test_witness_DecryptionReadsSubkeysInReverse : (1 ≤ 1 ∧ 1 ≤ 16) ∧ (1 ≤ 16 ∧ 16 ≤ 16) := by decide

theorem test_witness_BlockTransformFollowsItsRule : (1 ≤ 1 ∧ 1 ≤ 16) ∧ (1 ≤ 16 ∧ 16 ≤ 16) := by decide

theorem test_witness_DecryptionRetracesEncryption : 0 ≤ 16 ∧ 16 ≤ 16 := by decide

theorem test_witness_RotationMovesEveryBitAround : (1 ≤ 1 ∧ 1 ≤ 28 ∧ 28 ≤ 28) ∧ (1 = 1 ∨ 1 = 2) ∧ (2 = 1 ∨ 2 = 2) := by
  decide

theorem test_witness_TablesHaveTheirProperties : (1 ≤ 64 ∧ 64 ≤ 64) ∧ (1 ≤ 32 ∧ 32 ≤ 32) ∧ 57 ∈ tablePC1.toList := by decide

/-- The places read as 32 and as 1. -/
theorem test_witness_ExpandDuplicatesEdgeBits : (1 ≤ 1 ∧ 1 ≤ 8 ∧ 0 < 6 ∧ 4 * 1 - 4 + 0 = 0) ∧
    (1 ≤ 8 ∧ 8 ≤ 8 ∧ 5 < 6 ∧ 4 * 8 - 4 + 5 = 33) := by decide

theorem test_witness_PermuteMovesEachBit : permTableWf 32 tableE = true ∧ 47 < 48 := by decide

theorem test_witness_RoundFunctionSeesOnlyTheMix :
    expand 0#32 ^^^ 0#48 = expand 0xFFFFFFFF#32 ^^^ 0xFFFFFFFFFFFF#48 := by decide +kernel

theorem test_witness_EqualSubkeysMakeBothDirectionsEqual : ∀ m n, 1 ≤ m → m ≤ 16 → 1 ≤ n → n ≤ 16 →
    subkeyReg (Vector.replicate 16 5#48) m = subkeyReg (Vector.replicate 16 5#48) n := by
  intro m n h1 h2 h3 h4
  simp [subkeyReg, h1, h2, h3, h4]

theorem test_witness_BytesAndBitsConvert : 7 < (blockBytes digits).length ∧ 1 ≤ 8 ∧ 8 ≤ 8 ∧
    (blockBytes digits).length = (blockBytes iv1).length := by decide

theorem test_witness_BlocksAreCutInByteOrder : (blockBytes digits).length = 8 ∧ 1 ≤ 64 ∧ 64 ≤ 64 ∧
    twoDigits.length % 8 = 0 ∧ 1 < twoDigits.length / 8 := by decide

/-- A last byte of the whole length, of one more, and of 0. -/
theorem test_witness_UnpadTrustsTheLastByte :
    (1 ≤ (8#8).toNat ∧ (8#8).toNat ≤ ((blockBytes digits).take 7).length + 1) ∧
    ((blockBytes digits).take 7).length + 1 < (9#8).toNat ∧ (0#8).toNat = 0 := by decide

/-! The first and the last block of a message; they are equal. -/

theorem test_witness_CbcEncryptChainsCiphertext :
    twoDigits.length % 8 = 0 ∧ 0 < twoDigits.length / 8 ∧ 1 < twoDigits.length / 8 := by decide +kernel

theorem test_witness_CbcDecryptChainsCiphertext :
    twoDigits.length % 8 = 0 ∧ 0 < twoDigits.length / 8 ∧ 1 < twoDigits.length / 8 := by decide +kernel

theorem test_witness_EcbBlocksAreIndependent : twoDigits.length % 8 = 0 ∧ 0 < twoDigits.length / 8 ∧
    1 < twoDigits.length / 8 ∧ (blocksOf twoDigits).getD 0 0 = (blocksOf twoDigits).getD 1 0 := by decide +kernel

/-- A change of the first of two blocks in its last position. -/
theorem test_witness_CiphertextErrorsPropagateExactly : ∃ (δ : Block) (c c' : List Byte), c.length % 8 = 0 ∧
    c'.length = c.length ∧ 0 + 1 < c.length / 8 ∧ δ ≠ 0 ∧ (blocksOf c').getD 0 0 = (blocksOf c).getD 0 0 ^^^ δ ∧
    ∀ j, j ≠ 0 → (blocksOf c').getD j 0 = (blocksOf c).getD j 0 := by
  refine ⟨1#64, bytesOf [2#64, 5#64], bytesOf [3#64, 5#64], by simp, by simp, by simp, by decide, by simp, ?_⟩
  intro j hj
  rw [blocksOf_bytesOf, blocksOf_bytesOf]
  cases j with
  | zero => exact absurd rfl hj
  | succ j => rfl

/-- A change of the last of two blocks, after which no block comes. -/
theorem test_witness_CiphertextErrorsPropagateExactly_last_block : ∃ (δ : Block) (c c' : List Byte),
    c.length % 8 = 0 ∧ c'.length = c.length ∧ 1 < c.length / 8 ∧ ¬ 1 + 1 < c.length / 8 ∧ δ ≠ 0 ∧
    (blocksOf c').getD 1 0 = (blocksOf c).getD 1 0 ^^^ δ ∧
    ∀ j, j ≠ 1 → (blocksOf c').getD j 0 = (blocksOf c).getD j 0 := by
  refine ⟨1#64, bytesOf [2#64, 5#64], bytesOf [2#64, 4#64], by simp, by simp, by simp, by simp, by decide, by simp, ?_⟩
  intro j hj
  rw [blocksOf_bytesOf, blocksOf_bytesOf]
  match j, hj with
  | 0, _ => rfl
  | 1, h => exact absurd rfl h
  | _ + 2, _ => rfl

theorem test_witness_DoubleEncryptionComposes : (blockBytes digits).length = 8 := rfl

/-- One state for each clause, with lengths on both sides of the test. -/
theorem test_witness_EncryptFollowsItsRule :
    (withKey [] [] 0x01#8).cfg.valid = false ∧
    ((withInstance .ecb .none descrypt [1#8, 2#8, 3#8, 4#8, 5#8, 6#8, 7#8] 0x01#8).inBuf.len % 8 ≠ 0) ∧
    ((withInstance .cbc .none descrypt (blockBytes digits) 0x01#8).inBuf.len % 8 = 0 ∧
      (withInstance .cbc .none descrypt (blockBytes digits) 0x01#8).cfg = ⟨true, .cbc, .none⟩) ∧
    (withInstance .ecb .pkcs5 descrypt [] 0x01#8).cfg = ⟨true, .ecb, .pkcs5⟩ := by decide +kernel

/-- One state for each clause: no instance, 7 bytes, the empty message without padding, 8 bytes and none with it. -/
theorem test_witness_DecryptFollowsItsRule :
    (withKey [] [] 0x02#8).cfg.valid = false ∧
    ((withInstance .ecb .pkcs5 descrypt [1#8, 2#8, 3#8, 4#8, 5#8, 6#8, 7#8] 0x02#8).inBuf.len % 8 ≠ 0) ∧
    ((withInstance .cbc .none descrypt [] 0x02#8).inBuf.len % 8 = 0 ∧
      (withInstance .cbc .none descrypt [] 0x02#8).cfg = ⟨true, .cbc, .none⟩) ∧
    (0 < (withInstance .ecb .pkcs5 descrypt (blockBytes digits) 0x02#8).inBuf.len ∧
      (withInstance .ecb .pkcs5 descrypt (blockBytes digits) 0x02#8).inBuf.len % 8 = 0 ∧
      (withInstance .ecb .pkcs5 descrypt (blockBytes digits) 0x02#8).cfg = ⟨true, .ecb, .pkcs5⟩) ∧
    (withInstance .ecb .pkcs5 descrypt [] 0x02#8).inBuf.len = 0 := by decide +kernel

theorem test_witness_ResultLengths :
    (∃ s t : State, exec .encrypt s = .next t ∧ t.status = .ok ∧ s.cfg.pad = .none) ∧
    (∃ s t : State, exec .encrypt s = .next t ∧ t.status = .ok ∧ s.cfg.pad = .pkcs5) ∧
    (∃ s t : State, exec .decrypt s = .next t ∧ t.status = .ok ∧ s.cfg.pad = .none) ∧
    ∃ s t : State, exec .decrypt s = .next t ∧ t.status = .ok ∧ s.cfg.pad = .pkcs5 :=
  ⟨⟨withInstance .cbc .none descrypt twoDigits 0x01#8, _, eq_next_after (by decide +kernel), by decide +kernel, rfl⟩,
    ⟨withInstance .cbc .pkcs5 descrypt [1#8] 0x01#8, _, eq_next_after (by decide +kernel), by decide +kernel, rfl⟩,
    ⟨withInstance .cbc .none descrypt twoDigits 0x02#8, _, eq_next_after (by decide +kernel), by decide +kernel, rfl⟩,
    ⟨withInstance .cbc .pkcs5 descrypt twoDigits 0x02#8, _, eq_next_after (by decide +kernel), by decide +kernel,
      rfl⟩⟩

theorem test_witness_CommandRoundTrip :
    (∃ s t : State, exec .encrypt s = .next t ∧ t.status = .ok) ∧
    ∃ s t : State, exec .decrypt s = .next t ∧ t.status = .ok ∧ s.cfg.pad = .none :=
  ⟨⟨withInstance .cbc .pkcs5 descrypt [1#8] 0x01#8, _, eq_next_after (by decide +kernel), by decide +kernel⟩,
    ⟨withInstance .cbc .none descrypt twoDigits 0x02#8, _, eq_next_after (by decide +kernel), by decide +kernel, rfl⟩⟩

/-- Both clauses: a later call that delivers, and the one that is refused. -/
theorem test_witness_CallsDoNotInfluenceLaterCalls : ∃ (s t u : State),
    exec .encrypt s = .next t ∧ exec .decrypt { s with inBuf := State.reset.inBuf.load twoDigits } = .next u ∧
    exec .decrypt { s with inBuf := State.reset.inBuf.load [] } = .refused .unpadEmpty :=
  ⟨withInstance .cbc .pkcs5 descrypt [1#8] 0x01#8, _, _, eq_next_after (by decide +kernel),
    eq_next_after (by decide +kernel), eq_unpadEmpty (by decide +kernel)⟩

theorem test_witness_KeyAndIvBuffersAreDeadAfterConstruct : ∃ s t : State, exec .decrypt s = .next t ∧ t.status = .ok :=
  ⟨withInstance .cbc .none descrypt twoDigits 0x02#8, _, eq_next_after (by decide +kernel), by decide +kernel⟩

/-- The premises of the three clauses, and a run with a host write of `OUT` for the first. -/
theorem test_witness_UnspecifiedStateIsNeverObserved : ∃ s t : State, s ≠ t ∧ SameForHost s t ∧ SameSpecified s t ∧
    ∀ n, HostEvent.setLength .out n ∉ [HostEvent.load .out (blockBytes digits), .issue 0x01#8] :=
  have h : SameForHost State.reset
      { State.reset with ivr := 0#64, k := keySched descrypt, outBuf := ⟨[], 0, 9⟩ } :=
    ⟨⟨⟨rfl, rfl, rfl, rfl⟩, rfl, rfl, rfl, rfl, rfl, nofun, nofun, nofun⟩, rfl⟩
  ⟨_, _, by decide +kernel, h, h.toSameSpecified, by simp⟩

/-- The premises of the first clause: two cores that differ in `CMD` and in a byte beyond `IVLEN`. -/
theorem test_witness_UnspecifiedOperandsAreNeverObserved : ∃ s t : State, s ≠ t ∧ SameWithinLengths s t ∧
    ∀ b n, HostEvent.setLength b n ∉ [HostEvent.load .inp (blockBytes digits), .poke .iv 0 7#8, .issue 0x01#8] := by
  refine ⟨State.reset, { State.reset with cmd := 0x00#8, ivBuf := ⟨[(5, 0#8)], 1, 1⟩ }, by decide +kernel,
    ⟨fun b => by cases b <;> rfl, fun b i hi => ?_, rfl, rfl, rfl, nofun, nofun, nofun⟩, by simp⟩
  cases b with
  | iv => obtain rfl : i = 0 := Nat.lt_one_iff.mp hi; rfl
  | _ => rfl

/-- The premises of the second clause: a core that holds other things after reset, `KEYLEN = 8` among them. -/
theorem test_witness_UnspecifiedOperandsAreNeverObservedOnceLoaded : ∃ s : State, s ≠ State.reset ∧
    s.cfg.valid = false ∧ s.status = .ok ∧ s.outBuf.len = 0 ∧ s.draws = State.reset.draws ∧
    ∀ b n, HostEvent.setLength b n ∉ [HostEvent.issue 0x00#8, .issue 0x01#8] :=
  ⟨{ State.reset with cmd := 0x00#8, keyBuf := ⟨[], 8, 17⟩, inBuf := ⟨[(0, 1#8)], 3, 9⟩, ivr := 0#64 },
    by decide +kernel, rfl, rfl, rfl, rfl, by simp⟩

end Sys2Proof.Tests
end

section
/-! PROOFS. Scope: the step and its stops (00_scope.md R15, R16), bytes and bits (00_scope.md R12). -/

namespace Sys2Proof.Machine

/-! ### The step by what its word decodes to -/

/-- A legal word: the step is its command (00_scope.md R16, 30_encoding.md R60). -/
theorem step_of_decode_ok {s : State} {i : Instr} (h : decode s.cmd = .ok i) : step s = exec i s := by
  simp only [step, fetchWord, h]

/-- A word that is no command: the step raises `IllegalCommand` (30_encoding.md R66, 60_exceptions.md R206). -/
theorem step_of_decode_error {s : State} {e : DecodeError} (h : decode s.cmd = .error e) :
    step s = .next (raiseError .illegalCommand s) := by
  simp only [step, fetchWord, h]

/-- Settles O4: the step is a case split on the decoded word, and this is its first case. -/
theorem stepRunsTheDecodedCommand : Obligations.StepRunsTheDecodedCommand :=
  fun _ _ h => step_of_decode_ok h

/-! ### Where a command stops -/

/-- CONSTRUCT always answers (44_chaining_padding.md R161). -/
theorem execConstruct_answers (mode : Mode) (pad : Padding) (s : State) :
    ∃ t, execConstruct mode pad s = .next t := by
  rw [execConstruct_eq]
  split_ifs <;> exact ⟨_, rfl⟩

/-- ENCRYPT always answers (44_chaining_padding.md R163). -/
theorem execEncrypt_answers (s : State) : ∃ t, execEncrypt s = .next t := by
  rw [execEncrypt_eq]
  split_ifs <;> exact ⟨_, rfl⟩

/-- Unpadding under a padding stops only on the empty sequence under PKCS5 (44_chaining_padding.md R166, R172). -/
theorem unpadFor_eq_none (z : Config.UnpadZero) (pad : Padding) (m : List Byte) :
    unpadFor z pad m = none ↔ pad = .pkcs5 ∧ m = [] := by
  cases pad with
  | none => simp [unpadFor]
  | pkcs5 => simp [unpadFor, unpadMessage_eq_none]

/-- Decrypted whole blocks are empty only where the ciphertext is (44_chaining_padding.md R167, R168). -/
theorem chainDec_message_eq_nil (s : State) (hl : s.inBuf.len % 8 = 0) :
    chainDec s.cfg.mode s.k s.ivr s.message = [] ↔ s.inBuf.len = 0 := by
  rw [← List.length_eq_zero_iff, chainDec_length _ _ _ _ (by rwa [message_length]), message_length]

/-- DECRYPT of the empty sequence under PKCS5 is refused (44_chaining_padding.md R172). -/
theorem decryptWith_emptyUnpad (z : Config.UnpadZero) {s : State} (hv : s.cfg.valid = true)
    (hp : s.cfg.pad = .pkcs5) (h0 : s.inBuf.len = 0) : decryptWith z s = .refused .unpadEmpty := by
  have hl : s.inBuf.len % 8 = 0 := by rw [h0]
  exact decryptWith_refused z hv hl ((unpadFor_eq_none ..).mpr ⟨hp, (chainDec_message_eq_nil s hl).mpr h0⟩)

/-- DECRYPT in every other case answers (44_chaining_padding.md R166). -/
theorem decryptWith_answers (z : Config.UnpadZero) {s : State}
    (h : ¬ (s.cfg.valid = true ∧ s.cfg.pad = .pkcs5 ∧ s.inBuf.len = 0)) : ∃ t, decryptWith z s = .next t := by
  cases hv : s.cfg.valid with
  | false => exact ⟨_, decryptWith_notConstructed z hv⟩
  | true =>
    by_cases hl : s.inBuf.len % 8 = 0
    · cases hm : unpadFor z s.cfg.pad (chainDec s.cfg.mode s.k s.ivr s.message) with
      | some m => exact ⟨_, decryptWith_ok z hv hl hm⟩
      | none =>
        obtain ⟨hp, hc⟩ := (unpadFor_eq_none ..).mp hm
        exact absurd ⟨hv, hp, (chainDec_message_eq_nil s hl).mp hc⟩ h
    · exact ⟨_, decryptWith_badLength z hv hl⟩

/-- Settles O10, by the word in `CMD`: only DECRYPT can stop, and only where there is nothing to unpad. -/
theorem stepStopsOnlyOnTheEmptyUnpad : Obligations.StepStopsOnlyOnTheEmptyUnpad := by
  refine fun s => ⟨fun ⟨hd, hv, hp, h0⟩ => ?_, fun h => ?_⟩
  · rw [step_of_decode_ok hd]
    exact decryptWith_emptyUnpad unpadZero hv hp h0
  · unfold State.SafeStep
    cases hd : decode s.cmd with
    | error e => exact ⟨_, step_of_decode_error hd⟩
    | ok i =>
      rw [step_of_decode_ok hd]
      cases i with
      | construct mode pad => exact execConstruct_answers mode pad s
      | encrypt => exact execEncrypt_answers s
      | decrypt => exact decryptWith_answers unpadZero fun hs => h ⟨hd, hs⟩

/-! ### Bytes and bits -/

/-- One more byte at the end. -/
theorem bytesToNat_concat (B : List Byte) (b : Byte) : bytesToNat (B ++ [b]) = 2 ^ 8 * bytesToNat B + b.toNat := by
  simp [bytesToNat]

/-- Bit `i` of byte `k`, counted in the number from the last byte on. -/
theorem testBit_bytesToNat (B : List Byte) (k i : Nat) (hk : k < B.length) (hi : i < 8) :
    (bytesToNat B).testBit (8 * (B.length - 1 - k) + i) = B[k].getLsbD i := by
  induction B using List.reverseRecOn generalizing k with
  | nil => simp at hk
  | append_singleton B b ih =>
    rw [bytesToNat_concat, Nat.testBit_two_pow_mul_add _ b.isLt]
    simp only [List.length_append, List.length_singleton, Nat.add_sub_cancel] at hk ⊢
    rcases Nat.lt_succ_iff_lt_or_eq.mp hk with hlt | rfl
    · have hpos : 8 * (B.length - k) + i - 8 = 8 * (B.length - 1 - k) + i := by omega
      rw [if_neg (by omega), hpos, ih k hlt, List.getElem_append_left hlt]
    · simp [hi, BitVec.getLsbD]

/-- Position `p` counted from the other end, as `BitVec` counts (00_scope.md R10, R11). -/
theorem bitAt_eq_getLsbD {w : Nat} (s : BitVec w) (p : Nat) (h1 : 1 ≤ p) (hp : p ≤ w) :
    bitAt s p = s.getLsbD (w - p) := by
  have hlt : p - 1 < w := by omega
  have hpos : w - 1 - (p - 1) = w - p := by omega
  rw [bitAt, BitVec.getMsbD, hpos, decide_eq_true hlt, Bool.true_and]

/-- Position `8k + j` of `BytesToBits(B)` is bit `8 - j` of byte `k` (00_scope.md R12). -/
theorem bitAt_bytesToBits (B : List Byte) (k j : Nat) (hk : k < B.length) (h1 : 1 ≤ j) (h8 : j ≤ 8) :
    bitAt (bytesToBits B) (8 * k + j) = B[k].getLsbD (8 - j) := by
  have hpos : 8 * B.length - (8 * k + j) = 8 * (B.length - 1 - k) + (8 - j) := by omega
  have hlt : 8 * (B.length - 1 - k) + (8 - j) < 8 * B.length := by omega
  rw [bitAt_eq_getLsbD _ _ (by omega) (by omega), hpos, bytesToBits, BitVec.getLsbD_ofNat, decide_eq_true hlt,
    Bool.true_and, testBit_bytesToNat B k (8 - j) hk (by omega)]

/-- Two sequences of `n` bytes' length that agree byte by byte, position by position, are the same number. -/
theorem toNat_eq_of_bytewise {v w n : Nat} {s : BitVec v} {t : BitVec w} (hv : v = 8 * n) (hw : w = 8 * n)
    (h : ∀ k j, k < n → 1 ≤ j → j ≤ 8 → bitAt s (8 * k + j) = bitAt t (8 * k + j)) : s.toNat = t.toNat := by
  subst hv hw
  refine congrArg BitVec.toNat (eq_of_bitAt fun p h1 hp => ?_)
  have hp' : p = 8 * ((p - 1) / 8) + ((p - 1) % 8 + 1) := by omega
  rw [hp']
  exact h _ _ (by omega) (by omega) (by omega)

@[simp] theorem bitsToBytes_length {m : Nat} (s : BitVec (8 * m)) : (bitsToBytes s).length = m := by
  simp [bitsToBytes]

/-- Bit `8 - j` of byte `k` of `BitsToBytes(s)` is position `8k + j` of `s` (00_scope.md R12). -/
theorem bitsToBytes_getLsbD {m : Nat} (s : BitVec (8 * m)) (k j : Nat) (hk : k < (bitsToBytes s).length)
    (h1 : 1 ≤ j) (h8 : j ≤ 8) : (bitsToBytes s)[k].getLsbD (8 - j) = bitAt s (8 * k + j) := by
  have hm : k < m := by simpa using hk
  have hbyte : (bitsToBytes s)[k] = slice s (8 * k + 1) 8 := by simp [bitsToBytes]
  have hpos : 8 * k + 1 + j - 1 = 8 * k + j := by omega
  rw [hbyte, ← bitAt_eq_getLsbD _ j h1 h8, bitAt_slice s _ 8 j (by omega) (by omega) h1 h8, hpos]

/-- `BitsToBytes` undoes `BytesToBits`, for every number of bytes (00_scope.md R12). -/
theorem bitsToBytes_bytesToBits (B : List Byte) : bitsToBytes (bytesToBits B) = B := by
  refine List.ext_getElem (bitsToBytes_length _) fun k hk hB => eq_of_bitAt fun j h1 h8 => ?_
  rw [bitAt_eq_getLsbD _ j h1 h8, bitAt_eq_getLsbD _ j h1 h8, bitsToBytes_getLsbD _ k j hk h1 h8,
    bitAt_bytesToBits B k j hB h1 h8]

/-- `BytesToBits` undoes `BitsToBytes`, for every number of bytes (00_scope.md R12). -/
theorem bytesToBits_bitsToBytes {m : Nat} (s : BitVec (8 * m)) : (bytesToBits (bitsToBytes s)).toNat = s.toNat := by
  refine toNat_eq_of_bytewise (n := m) (by rw [bitsToBytes_length]) rfl fun k j hk h1 h8 => ?_
  have hk' : k < (bitsToBytes s).length := by rwa [bitsToBytes_length]
  rw [bitAt_bytesToBits _ k j hk' h1 h8, bitsToBytes_getLsbD s k j hk' h1 h8]

/-- Equal lengths in bytes are equal lengths in bits: a position keeps its bit. -/
theorem bitAt_cast {v w : Nat} (h : v = w) (s : BitVec v) (p : Nat) : bitAt (s.cast h) p = bitAt s p := by
  subst h
  rfl

/-- Exclusive-or byte by byte is exclusive-or bit by bit (00_scope.md R12). -/
theorem bytesToBits_zipWith_xor (B B' : List Byte) (h : B.length = B'.length) :
    (bytesToBits (List.zipWith (· ^^^ ·) B B')).toNat = (bytesToBits B).toNat ^^^ (bytesToBits B').toNat := by
  have hw : 8 * B'.length = 8 * B.length := by rw [h]
  have hlen : (List.zipWith (· ^^^ ·) B B').length = B.length := by simp [h]
  calc (bytesToBits (List.zipWith (· ^^^ ·) B B')).toNat
      = (bytesToBits B ^^^ (bytesToBits B').cast hw).toNat := by
        refine toNat_eq_of_bytewise (n := B.length) (by rw [hlen]) rfl fun k j hk h1 h8 => ?_
        rw [bitAt_xor, bitAt_cast, bitAt_bytesToBits _ k j (by rwa [hlen]) h1 h8, bitAt_bytesToBits B k j hk h1 h8,
          bitAt_bytesToBits B' k j (h ▸ hk) h1 h8, List.getElem_zipWith, BitVec.getLsbD_xor]
    _ = (bytesToBits B).toNat ^^^ (bytesToBits B').toNat := by rw [BitVec.toNat_xor, BitVec.toNat_cast]

/-- Settles O37, position by position: every clause compares position `8k + j` on both sides. -/
theorem bytesAndBitsConvert : Obligations.BytesAndBitsConvert :=
  ⟨bitAt_bytesToBits, bitsToBytes_bytesToBits, fun _ => bytesToBits_bitsToBytes, bytesToBits_zipWith_xor⟩

end Sys2Proof.Machine
end

section
/-! PROOFS. Scope: the host's writes and the invariant (10_state.md R21 to R31, 20_memory.md R40, R43, R49,
60_exceptions.md R203 to R205, 70_reset_and_hazards.md R230). -/

namespace Sys2Proof.Machine

/-! ### The host's writes of one byte and of one length -/

/-- A byte just written, and every other byte as before. -/
theorem poke_read (b : Buffer) (i : Nat) (v : Byte) (a : Nat) :
    Buffer.read { b with cells := Memory.set b.cells i v } a = if a = i then v else b.read a := by
  simp only [Buffer.read, Memory.get?_set]
  split_ifs <;> rfl

/-- The host's change of one buffer, seen in that buffer. -/
@[simp] theorem onHostBuf_buf_self (s : State) (b : BufId) (f : Buffer → Buffer) :
    (s.onHostBuf b f).buf b = f (s.buf b) := by
  rw [onHostBuf_buf, if_pos rfl]

/-- Settles O55: both writes change one buffer, and in it one byte or the length. -/
theorem hostWritesOneByteOrOneLength : Obligations.HostWritesOneByteOrOneLength := by
  refine fun b s => ⟨fun i v => ⟨_, rfl, onHostBuf_only .., ?_, ?_, fun a ha => ?_⟩,
    fun n => ⟨_, rfl, onHostBuf_only .., ?_, fun a => ?_⟩⟩
  · rw [onHostBuf_buf_self]
  · rw [State.readByte, onHostBuf_buf_self, poke_read, if_pos rfl]
  · rw [State.readByte, onHostBuf_buf_self, poke_read, if_neg ha, State.readByte]
  · rw [onHostBuf_buf_self]
  · rw [State.readByte, onHostBuf_buf_self]
    rfl

/-! ### The invariant: where it holds from nothing, and every way a command can end -/

/-- Settles O6: reset names these three values and takes none from the state before. -/
theorem resetLeavesNoInstance : Obligations.ResetLeavesNoInstance :=
  ⟨⟨rfl, rfl, rfl⟩, fun s => ⟨s.afterReset, rfl, rfl, rfl, rfl⟩⟩

/-- The invariant where nothing is written, nothing delivered and `VALID = 0` (10_state.md R31). -/
theorem inv_of_nothing_written {s : State} (hcells : ∀ b, (s.buf b).cells = []) (hlen : s.outBuf.len = 0)
    (hstatus : s.status = .ok) (hvalid : s.cfg.valid = false) : s.Inv where
  canonical b := by rw [hcells]; rfl
  notConstructed _ := hvalid
  invalidBlockLength h := by simp [hstatus] at h
  subkeys h := by simp [hvalid] at h
  outListed i := by
    have hout : s.outBuf.cells = [] := hcells .out
    simp [hout, Memory.get?, hlen]
  errorDeliversNothing h := absurd hstatus h
  delivery h := by omega

/-- The state after a reset of a running core meets the invariant (70_reset_and_hazards.md R230). -/
theorem afterReset_inv (s : State) : s.afterReset.Inv :=
  inv_of_nothing_written (fun b => by cases b <;> rfl) rfl rfl rfl

/-- Settles O7: after reset nothing is written. -/
theorem resetMeetsTheInvariant : Obligations.ResetMeetsTheInvariant :=
  inv_of_nothing_written (fun b => by cases b <;> rfl) rfl rfl rfl

/-- A command that leaves the operands alone and `OUT` as delivered keeps every buffer canonical. -/
theorem canonical_of_delivered {s t : State} (hs : s.HostInv) (ho : SameOperands s t) {bytes : List Byte} {fill : Nat}
    (hout : t.outBuf = outBufferOf bytes fill) : ∀ b, Memory.wf (t.buf b).cells = true
  | .key => by rw [buf_key, ho.keyBuf]; exact hs.canonical .key
  | .iv => by rw [buf_iv, ho.ivBuf]; exact hs.canonical .iv
  | .inp => by rw [buf_inp, ho.inBuf]; exact hs.canonical .inp
  | .out => by rw [buf_out, hout]; exact outBufferOf_wf bytes fill

/-- An error makes the invariant whole, if it is the one that `VALID` calls for (60_exceptions.md R203 to R205). -/
theorem raiseError_inv {s : State} (hs : s.HostInv) {e : Status} (hn : e = .notConstructed → s.cfg.valid = false)
    (hb : e = .invalidBlockLength → s.cfg.valid = true) : (raiseError e s).Inv where
  canonical := canonical_of_delivered hs (raiseError_raised s e).operands rfl
  notConstructed := hn
  invalidBlockLength := hb
  subkeys := hs.subkeys
  outListed := outBufferOf_listed [] s.draws
  errorDeliversNothing _ := rfl
  delivery h := absurd h (Nat.lt_irrefl 0)

/-- A delivery where `VALID = 1` makes the invariant whole (44_chaining_padding.md R163, R166). -/
theorem deliver_inv {s : State} (hs : s.HostInv) (bytes : List Byte) (hv : s.cfg.valid = true) :
    (deliver bytes s).Inv where
  canonical := canonical_of_delivered hs (deliver_delivered bytes s).operands rfl
  notConstructed := nofun
  invalidBlockLength := nofun
  subkeys := hs.subkeys
  outListed := outBufferOf_listed bytes s.draws
  errorDeliversNothing h := absurd rfl h
  delivery _ := hv

/-- A successful CONSTRUCT makes the invariant whole (44_chaining_padding.md R161). -/
theorem installInstance_inv {s : State} (hs : s.HostInv) (key : Block) (mode : Mode) (pad : Padding) (iv : Block) :
    (installInstance (keySched key) mode pad iv s).Inv where
  canonical := canonical_of_delivered hs (installInstance_constructed s key mode pad iv).operands rfl
  notConstructed := nofun
  invalidBlockLength := nofun
  subkeys _ := ⟨key, rfl⟩
  outListed := outBufferOf_listed [] s.draws
  errorDeliversNothing h := absurd rfl h
  delivery _ := rfl

/-- Every command makes the invariant whole, whatever the host left in `OUT` (20_memory.md R43). -/
theorem step_inv {s t : State} (hs : s.HostInv) (h : step s = .next t) : t.Inv := by
  obtain ⟨e, -, rfl, hn, hb⟩ | ⟨bytes, rfl, hv⟩ | ⟨mode, pad, -, -, -, rfl⟩ := step_cases h
  · exact raiseError_inv hs hn hb
  · exact deliver_inv hs bytes hv
  · exact installInstance_inv hs s.keyBlock mode pad _

/-- Settles O8: a step needs only the host part of the invariant. -/
theorem stepKeepsTheInvariant : Obligations.StepKeepsTheInvariant :=
  fun _ _ hs h => step_inv hs.toHostInv h

/-! ### The invariant along the host's actions -/

/-- The invariant's host part reads the buffers and what the host's change of one leaves alone. -/
theorem hostInv_onHostBuf {s : State} (hs : s.HostInv) (b : BufId) {f : Buffer → Buffer}
    (hf : ∀ c : Buffer, Memory.wf c.cells = true → Memory.wf (f c).cells = true) : (s.onHostBuf b f).HostInv := by
  obtain ⟨-, -, hstatus, hk, hcfg, -⟩ := onHostBuf_only s b f
  refine ⟨fun c => ?_, ?_, ?_, ?_⟩
  · rw [onHostBuf_buf]
    split_ifs
    · exact hf _ (hs.canonical c)
    · exact hs.canonical c
  · rw [hstatus, hcfg]; exact hs.notConstructed
  · rw [hstatus, hcfg]; exact hs.invalidBlockLength
  · rw [hcfg, hk]; exact hs.subkeys

/-- A change of an operand buffer keeps what the invariant says of `OUT`. -/
theorem inv_onHostBuf {s : State} (hs : s.Inv) {b : BufId} (hb : (b == .out) = false) {f : Buffer → Buffer}
    (hf : ∀ c : Buffer, Memory.wf c.cells = true → Memory.wf (f c).cells = true) : (s.onHostBuf b f).Inv := by
  obtain ⟨hothers, -, hstatus, -, hcfg, -⟩ := onHostBuf_only s b f
  have hout : (s.onHostBuf b f).outBuf = s.outBuf := hothers .out (by rintro rfl; simp at hb)
  refine ⟨hostInv_onHostBuf hs.toHostInv b hf, ?_, ?_, ?_⟩
  · rw [hout]; exact hs.outListed
  · rw [hstatus, hout]; exact hs.errorDeliversNothing
  · rw [hout, hcfg]; exact hs.delivery

/-- Writing `CMD` leaves every buffer alone. -/
@[simp] theorem withCmd_buf (s : State) (w : Byte) (b : BufId) : State.buf { s with cmd := w } b = s.buf b := by
  cases b <;> rfl

/-- The invariant's host part does not speak of `CMD`. -/
theorem hostInv_withCmd {s : State} (hs : s.HostInv) (w : Byte) : State.HostInv { s with cmd := w } :=
  ⟨fun b => by rw [withCmd_buf]; exact hs.canonical b, hs.notConstructed, hs.invalidBlockLength, hs.subkeys⟩

/-- Every action of the host keeps the host part. -/
theorem hostStep_hostInv (e : HostEvent) (s t : State) (hs : s.HostInv) (h : hostStep e s = .next t) : t.HostInv := by
  cases e with
  | load b bytes => cases h; exact hostInv_onHostBuf hs b fun c => load_wf c bytes
  | poke b i v => cases h; exact hostInv_onHostBuf hs b fun c => Memory.wf_set c.cells i v
  | setLength b n => cases h; exact hostInv_onHostBuf hs b fun _ => id
  | issue w => exact (step_inv (hostInv_withCmd hs w) h).toHostInv
  | reset => cases h; exact (afterReset_inv s).toHostInv

/-- Every action that does not write `OUT` by the host's own hand keeps the whole invariant (log entry 21). -/
theorem hostStep_inv (e : HostEvent) (he : e.writesOut = false) (s t : State) (hs : s.Inv)
    (h : hostStep e s = .next t) : t.Inv := by
  cases e with
  | load b bytes => cases h; exact inv_onHostBuf hs he fun c => load_wf c bytes
  | poke b i v => cases h; exact inv_onHostBuf hs he fun c => Memory.wf_set c.cells i v
  | setLength b n => cases h; exact inv_onHostBuf hs he fun _ => id
  | issue w => exact step_inv (hostInv_withCmd hs.toHostInv w) h
  | reset => cases h; exact afterReset_inv s

/-- Settles O9, by induction over the actions: each keeps the host part, and the whole but for writes of `OUT`. -/
theorem hostRunsKeepTheInvariant : Obligations.HostRunsKeepTheInvariant :=
  ⟨fun es => runEvents_keeps (P := fun _ => True) (fun e _ => hostStep_hostInv e) es fun _ _ => trivial,
    fun es s t hs he => runEvents_keeps hostStep_inv es he s t hs⟩

end Sys2Proof.Machine
end

section
/-! PROOFS. Scope: what a command reads, and what no host ever sees (10_state.md R23, R29, R31, R33, 20_memory.md R42,
R43, R49, 60_exceptions.md R205). -/

namespace Sys2Proof.Machine

/-! ### What a command reads decides how it ends -/

/-- `s` and `t` agree on all that ENCRYPT and DECRYPT read: the message, `VALID` and, where `VALID = 1`, the mode,
the padding, the subkeys and, in CBC, the IV (44_chaining_padding.md R163, R166). -/
structure SameCipherInputs (s t : State) : Prop where
  message : t.message = s.message
  valid : t.cfg.valid = s.cfg.valid
  cfg : s.cfg.valid = true → t.cfg = s.cfg
  k : s.cfg.valid = true → t.k = s.k
  ivr : s.cfg.valid = true → s.cfg.mode = .cbc → t.ivr = s.ivr

/-- `s` and `t` agree on all that any command reads: that, both operand lengths of CONSTRUCT, and the key and the IV
where there are eight bytes of it (44_chaining_padding.md R161). -/
structure SameInputs (s t : State) : Prop extends SameCipherInputs s t where
  keyLen : t.keyBuf.len = s.keyBuf.len
  ivLen : t.ivBuf.len = s.ivBuf.len
  key : s.keyBuf.len = 8 → t.keyBlock = s.keyBlock
  iv : s.ivBuf.len = 8 → t.ivBlock = s.ivBlock
  draws : t.draws = s.draws

/-- Each way a command can end takes `s` and `t` to states that `R` relates. -/
structure EndsRelated (R : State → State → Prop) (s t : State) : Prop where
  raise : ∀ e, R (raiseError e s) (raiseError e t)
  deliver : ∀ bytes, R (deliver bytes s) (deliver bytes t)
  install : ∀ K mode pad iv, R (installInstance K mode pad iv s) (installInstance K mode pad iv t)

/-- Chaining in ECB reads no IV (44_chaining_padding.md R164). -/
theorem chainEnc_congr_iv {mode : Mode} {iv iv' : Block} (h : mode = .cbc → iv' = iv) (K : SubkeyFile)
    (m : List Byte) : chainEnc mode K iv' m = chainEnc mode K iv m := by
  cases mode with
  | ecb => rfl
  | cbc => rw [h rfl]

/-- Chaining in ECB reads no IV (44_chaining_padding.md R167). -/
theorem chainDec_congr_iv {mode : Mode} {iv iv' : Block} (h : mode = .cbc → iv' = iv) (K : SubkeyFile)
    (m : List Byte) : chainDec mode K iv' m = chainDec mode K iv m := by
  cases mode with
  | ecb => rfl
  | cbc => rw [h rfl]

section
variable {R : State → State → Prop} {s t : State}

/-- ENCRYPT ends the same way on the same inputs. -/
theorem execEncrypt_related (h : SameCipherInputs s t) (hR : EndsRelated R s t) :
    SameOutcome R (execEncrypt s) (execEncrypt t) := by
  cases hv : s.cfg.valid with
  | false =>
    rw [execEncrypt_notConstructed hv, execEncrypt_notConstructed (h.valid.trans hv)]
    exact hR.raise _
  | true =>
    rw [execEncrypt_eq s, execEncrypt_eq t, h.cfg hv, h.k hv, h.message, chainEnc_congr_iv (h.ivr hv)]
    split_ifs
    · exact hR.raise _
    · exact hR.raise _
    · exact hR.deliver _

/-- DECRYPT ends the same way on the same inputs, refused or not. -/
theorem decryptWith_related (z : Config.UnpadZero) (h : SameCipherInputs s t) (hR : EndsRelated R s t) :
    SameOutcome R (decryptWith z s) (decryptWith z t) := by
  have hlen : t.inBuf.len = s.inBuf.len := by rw [← message_length, h.message, message_length]
  cases hv : s.cfg.valid with
  | false =>
    rw [decryptWith_notConstructed z hv, decryptWith_notConstructed z (h.valid.trans hv)]
    exact hR.raise _
  | true =>
    rw [decryptWith_eq z s, decryptWith_eq z t, h.cfg hv, h.k hv, h.message, hlen, chainDec_congr_iv (h.ivr hv)]
    split_ifs
    · exact hR.raise _
    · exact hR.raise _
    · cases unpadFor z s.cfg.pad (chainDec s.cfg.mode s.k s.ivr s.message) with
      | some m => exact hR.deliver m
      | none => rfl

/-- CONSTRUCT leaves the same in `IVR`, if it reads the same IV. -/
theorem SameInputs.ivAfterConstruct_eq (h : SameInputs s t) {mode : Mode} (hlen : mode = .cbc → s.ivBuf.len = 8) :
    ivAfterConstruct mode t = ivAfterConstruct mode s := by
  cases mode with
  | ecb => exact congrArg Config.freeBlock h.draws
  | cbc => exact h.iv (hlen rfl)

/-- CONSTRUCT ends the same way on the same inputs. -/
theorem execConstruct_related (mode : Mode) (pad : Padding) (h : SameInputs s t) (hR : EndsRelated R s t) :
    SameOutcome R (execConstruct mode pad s) (execConstruct mode pad t) := by
  rw [execConstruct_eq, execConstruct_eq, h.keyLen, h.ivLen]
  split_ifs with hk hi
  · exact hR.raise _
  · exact hR.raise _
  · rw [h.key (not_not.mp hk), h.ivAfterConstruct_eq (by simpa using hi)]
    exact hR.install ..

/-- A step ends the same way on the same word and the same inputs. -/
theorem step_related (hcmd : t.cmd = s.cmd) (h : SameInputs s t) (hR : EndsRelated R s t) :
    SameOutcome R (step s) (step t) := by
  cases hd : decode s.cmd with
  | error e =>
    rw [step_of_decode_error hd, step_of_decode_error (hcmd ▸ hd)]
    exact hR.raise _
  | ok i =>
    rw [step_of_decode_ok hd, step_of_decode_ok (hcmd ▸ hd)]
    cases i with
    | construct mode pad => exact execConstruct_related mode pad h hR
    | encrypt => exact execEncrypt_related h.toSameCipherInputs hR
    | decrypt => exact decryptWith_related unpadZero h.toSameCipherInputs hR

end

/-! ### ENCRYPT and DECRYPT and the buffers of CONSTRUCT -/

/-- `t` is `s` with these buffers in place of `KEYBUF` and `IVBUF`. -/
def DiffersInKeyAndIv (kb ib : Buffer) (s t : State) : Prop := t = { s with keyBuf := kb, ivBuf := ib }

/-- Another `KEYBUF` and `IVBUF` are no other inputs of ENCRYPT and DECRYPT. -/
theorem sameCipherInputs_of_key_and_iv (s : State) (kb ib : Buffer) :
    SameCipherInputs s { s with keyBuf := kb, ivBuf := ib } :=
  ⟨rfl, rfl, fun _ => rfl, fun _ => rfl, fun _ _ => rfl⟩

/-- No command's end touches `KEYBUF` or `IVBUF`. -/
theorem endsRelated_key_and_iv (s : State) (kb ib : Buffer) :
    EndsRelated (DiffersInKeyAndIv kb ib) s { s with keyBuf := kb, ivBuf := ib } :=
  ⟨fun _ => rfl, fun _ => rfl, fun _ _ _ _ => rfl⟩

/-- An outcome alike to a next state is a related next state. -/
theorem SameOutcome.next_left {R : State → State → Prop} {s : State} {o : Host.Outcome State Fault Refusal}
    (h : SameOutcome R (.next s) o) : ∃ t, o = .next t ∧ R s t := by
  cases o with
  | next t => exact ⟨t, rfl, h⟩
  | fault f => exact h.elim
  | refused r => exact h.elim

/-- Settles O52: neither buffer is an input of the two commands. -/
theorem keyAndIvBuffersAreDeadAfterConstruct : Obligations.KeyAndIvBuffersAreDeadAfterConstruct := by
  intro i s t kb ib hi ht
  have hin := sameCipherInputs_of_key_and_iv s kb ib
  have hends := endsRelated_key_and_iv s kb ib
  have hout : SameOutcome (DiffersInKeyAndIv kb ib) (exec i s) (exec i { s with keyBuf := kb, ivBuf := ib }) := by
    rcases hi with rfl | rfl
    · exact execEncrypt_related hin hends
    · exact decryptWith_related unpadZero hin hends
  rw [ht] at hout
  obtain ⟨_, hnext, rfl⟩ := hout.next_left
  exact hnext

/-! ### Two buffers alike within their length -/

/-- `c` has the length of `b` and the same bytes within it. -/
structure Buffer.SameWithin (b c : Buffer) : Prop where
  len : c.len = b.len
  byte : ∀ i, i < b.len → c.read i = b.read i

/-- A range within the length reads the same. -/
theorem Buffer.SameWithin.readRange {b c : Buffer} (h : b.SameWithin c) {n : Nat} (hn : n ≤ b.len) :
    c.readRange 0 n = b.readRange 0 n := by
  refine List.map_congr_left fun i hi => h.byte _ ?_
  have := List.mem_range.mp hi
  omega

/-- Buffers just loaded are alike, whatever they held (30_encoding.md R67). -/
theorem Buffer.SameWithin.load (b c : Buffer) (bytes : List Byte) : (b.load bytes).SameWithin (c.load bytes) :=
  ⟨rfl, fun i hi => (load_read c bytes i hi).trans (load_read b bytes i hi).symm⟩

/-- Buffers stay alike when the same byte of both is written. -/
theorem Buffer.SameWithin.poke {b c : Buffer} (h : b.SameWithin c) (i : Nat) (v : Byte) :
    Buffer.SameWithin { b with cells := Memory.set b.cells i v } { c with cells := Memory.set c.cells i v } := by
  refine ⟨h.len, fun a ha => ?_⟩
  rw [poke_read, poke_read, h.byte a ha]

/-- The delivered bytes are the same exactly where both cores' `OUT` is alike within one `OUTLEN`. -/
theorem sameWithin_outBuf_iff {s t : State} (hlen : t.outBuf.len = s.outBuf.len) :
    s.outBuf.SameWithin t.outBuf ↔ t.outBytes = s.outBytes := by
  refine ⟨fun h => ?_, fun h => ⟨hlen, fun i hi => ?_⟩⟩
  · rw [State.outBytes, hlen, h.readRange le_rfl, State.outBytes]
  · rw [State.outBytes, hlen, State.outBytes] at h
    simpa using List.map_inj_left.mp h i (List.mem_range.mpr hi)

/-- Reset of a running core depends on the number of free values drawn and on nothing else (log entry 19). -/
theorem sameOutcome_reset {R : State → State → Prop} (hrefl : ∀ s, R s s) {s t : State} (h : t.draws = s.draws) :
    SameOutcome R (hostStep .reset s) (hostStep .reset t) := by
  have hreset : t.afterReset = s.afterReset := by rw [State.afterReset, h, State.afterReset]
  rw [hostStep, hostStep, hreset]
  exact hrefl _

/-! ### Unspecified registers and bytes of `OUT` -/

/-- `s` and `t` agree on everything but what no command reads and no host sees: on the whole of `OUT` too. Every command
makes its own `OUT`, so this is what it leaves of two cores that differ in unspecified state (20_memory.md R43). -/
structure SameWithOut (s t : State) : Prop extends SameSpecified s t where
  outBuf : t.outBuf = s.outBuf

theorem SameWithOut.refl (s : State) : SameWithOut s s :=
  ⟨⟨⟨rfl, rfl, rfl, rfl⟩, rfl, rfl, rfl, rfl, rfl, fun _ => rfl, fun _ => rfl, fun _ _ => rfl⟩, rfl⟩

/-- The same `OUT` delivers the same bytes. -/
theorem SameWithOut.sameForHost {s t : State} (h : SameWithOut s t) : SameForHost s t :=
  ⟨h.toSameSpecified, by rw [State.outBytes, h.outBuf, State.outBytes]⟩

section
variable {s t : State}

/-- A command reads nothing that the spec leaves unspecified (10_state.md R33). -/
theorem SameSpecified.inputs (h : SameSpecified s t) : SameInputs s t where
  message := congrArg (fun b : Buffer => b.readRange 0 b.len) h.operands.inBuf
  valid := h.valid
  cfg := h.cfg
  k := h.k
  ivr := h.ivr
  keyLen := congrArg Buffer.len h.operands.keyBuf
  ivLen := congrArg Buffer.len h.operands.ivBuf
  key _ := congrArg (fun b : Buffer => toBlock (b.readRange 0 8)) h.operands.keyBuf
  iv _ := congrArg (fun b : Buffer => toBlock (b.readRange 0 8)) h.operands.ivBuf
  draws := h.draws

/-- Every end of a command makes `OUT` the same whole. -/
theorem SameSpecified.ends (h : SameSpecified s t) : EndsRelated SameWithOut s t := by
  have hout (bytes : List Byte) : outBufferOf bytes t.draws = outBufferOf bytes s.draws := by rw [h.draws]
  have hdraws : t.draws + 1 = s.draws + 1 := by rw [h.draws]
  have hops := h.operands
  refine ⟨fun e => ⟨?_, hout []⟩, fun bytes => ⟨?_, hout bytes⟩, fun K mode pad iv => ⟨?_, hout []⟩⟩
  · exact ⟨⟨hops.cmd, hops.keyBuf, hops.ivBuf, hops.inBuf⟩, rfl, rfl, rfl, hdraws, h.valid, h.cfg, h.k, h.ivr⟩
  · exact ⟨⟨hops.cmd, hops.keyBuf, hops.ivBuf, hops.inBuf⟩, rfl, rfl, rfl, hdraws, h.valid, h.cfg, h.k, h.ivr⟩
  · exact ⟨⟨hops.cmd, hops.keyBuf, hops.ivBuf, hops.inBuf⟩, rfl, rfl, rfl, hdraws, rfl, fun _ => rfl, fun _ => rfl,
      fun _ _ => rfl⟩

/-- After any command two cores that differ in unspecified state agree on `OUT` again, or are stopped alike. -/
theorem SameSpecified.sameOutcome_step (h : SameSpecified s t) : SameOutcome SameWithOut (step s) (step t) :=
  step_related h.operands.cmd h.inputs h.ends

/-- The host writes the same word into both. -/
theorem SameSpecified.withCmd (h : SameSpecified s t) (w : Byte) :
    SameSpecified { s with cmd := w } { t with cmd := w } :=
  { h with operands := { h.operands with cmd := rfl } }

/-- The host changes the same buffer of both, in `OUT` by what is listed and by the length alone. -/
theorem SameSpecified.onHostBuf (h : SameSpecified s t) (b : BufId) {f : Buffer → Buffer}
    (hcells : ∀ c d : Buffer, d.cells = c.cells → (f d).cells = (f c).cells)
    (hlen : ∀ c d : Buffer, d.len = c.len → (f d).len = (f c).len) :
    SameSpecified (s.onHostBuf b f) (t.onHostBuf b f) := by
  cases b with
  | key => exact { h with operands := { h.operands with keyBuf := congrArg f h.operands.keyBuf } }
  | iv => exact { h with operands := { h.operands with ivBuf := congrArg f h.operands.ivBuf } }
  | inp => exact { h with operands := { h.operands with inBuf := congrArg f h.operands.inBuf } }
  | out =>
    have hops : SameOperands (s.onHostBuf .out f) (t.onHostBuf .out f) := { h.operands with }
    exact { h with operands := hops, outCells := hcells _ _ h.outCells, outLen := hlen _ _ h.outLen }

/-- The host loads the same bytes into the same buffer of both. -/
theorem SameSpecified.load (h : SameSpecified s t) (b : BufId) (bytes : List Byte) :
    SameSpecified (s.onHostBuf b (·.load bytes)) (t.onHostBuf b (·.load bytes)) :=
  h.onHostBuf b (fun _ _ hc => congrArg (Memory.setRange · 0 bytes) hc) fun _ _ _ => rfl

/-- The host writes the same byte of the same buffer of both. -/
theorem SameSpecified.poke (h : SameSpecified s t) (b : BufId) (i : Nat) (v : Byte) :
    SameSpecified (s.onHostBuf b fun c => { c with cells := Memory.set c.cells i v })
      (t.onHostBuf b fun c => { c with cells := Memory.set c.cells i v }) :=
  h.onHostBuf b (fun _ _ hc => congrArg (Memory.set · i v) hc) fun _ _ hl => hl

/-- The host writes the same length register of both. -/
theorem SameSpecified.setLength (h : SameSpecified s t) (b : BufId) (n : Nat) :
    SameSpecified (s.onHostBuf b fun c => { c with len := n }) (t.onHostBuf b fun c => { c with len := n }) :=
  h.onHostBuf b (fun _ _ hc => hc) fun _ _ _ => rfl

/-- A change of one buffer leaves the delivered bytes alike, if it does so to `OUT`. -/
theorem SameForHost.onHostBuf (h : SameForHost s t) {b : BufId} {f : Buffer → Buffer}
    (hspec : SameSpecified (s.onHostBuf b f) (t.onHostBuf b f))
    (hout : b = .out → s.outBuf.SameWithin t.outBuf → (f s.outBuf).SameWithin (f t.outBuf)) :
    SameForHost (s.onHostBuf b f) (t.onHostBuf b f) := by
  refine ⟨hspec, (sameWithin_outBuf_iff hspec.outLen).mp ?_⟩
  have hwithin := (sameWithin_outBuf_iff h.outLen).mpr h.outBytes
  cases b with
  | out => exact hout rfl hwithin
  | key => exact hwithin
  | iv => exact hwithin
  | inp => exact hwithin

/-- Every action of the host keeps two cores that differ in unspecified state so. -/
theorem SameSpecified.sameOutcome_hostStep (h : SameSpecified s t) (e : HostEvent) :
    SameOutcome SameSpecified (hostStep e s) (hostStep e t) := by
  cases e with
  | load b bytes => exact h.load b bytes
  | poke b i v => exact h.poke b i v
  | setLength b n => exact h.setLength b n
  | issue w => exact (h.withCmd w).sameOutcome_step.mono fun _ _ hst => hst.toSameSpecified
  | reset => exact sameOutcome_reset (fun u => (SameWithOut.refl u).toSameSpecified) h.draws

/-- Every action but a write of `OUTLEN` alone keeps two such cores alike for the host (log entry 21). -/
theorem SameForHost.sameOutcome_hostStep (h : SameForHost s t) {e : HostEvent} (he : ∀ n, e ≠ .setLength .out n) :
    SameOutcome SameForHost (hostStep e s) (hostStep e t) := by
  have hspec := h.toSameSpecified
  cases e with
  | load b bytes => exact h.onHostBuf (hspec.load b bytes) fun _ _ => .load ..
  | poke b i v => exact h.onHostBuf (hspec.poke b i v) fun _ hw => hw.poke i v
  | setLength b n => exact h.onHostBuf (hspec.setLength b n) fun hb => absurd (by rw [hb]) (he n)
  | issue w => exact (hspec.withCmd w).sameOutcome_step.mono fun _ _ hst => hst.sameForHost
  | reset => exact sameOutcome_reset (fun u => (SameWithOut.refl u).sameForHost) h.draws

/-- Every action of the host keeps two such cores with one `OUT` so. -/
theorem SameWithOut.sameOutcome_hostStep (h : SameWithOut s t) (e : HostEvent) :
    SameOutcome SameWithOut (hostStep e s) (hostStep e t) := by
  have hspec := h.toSameSpecified
  have hbuf (b : BufId) (f : Buffer → Buffer) : (t.onHostBuf b f).outBuf = (s.onHostBuf b f).outBuf := by
    cases b with
    | out => exact congrArg f h.outBuf
    | key => exact h.outBuf
    | iv => exact h.outBuf
    | inp => exact h.outBuf
  cases e with
  | load b bytes => exact ⟨hspec.load b bytes, hbuf b _⟩
  | poke b i v => exact ⟨hspec.poke b i v, hbuf b _⟩
  | setLength b n => exact ⟨hspec.setLength b n, hbuf b _⟩
  | issue w => exact (hspec.withCmd w).sameOutcome_step
  | reset => exact sameOutcome_reset .refl h.draws

end

/-- Settles O53: each clause is a relation that every allowed action keeps. -/
theorem unspecifiedStateIsNeverObserved : Obligations.UnspecifiedStateIsNeverObserved := by
  refine ⟨fun es s t h hes => ?_, fun es => ?_, fun s t h => h.sameOutcome_step.mono fun _ _ hst => hst.sameForHost⟩
  · exact runEvents_related (P := fun e => ∀ n, e ≠ .setLength .out n) (fun _ he _ _ hst => hst.sameOutcome_hostStep he)
      es (fun e he n heq => hes n (heq ▸ he)) s t h
  · exact runEvents_related (P := fun _ => True) (fun e _ _ _ hst => hst.sameOutcome_hostStep e) es fun _ _ => trivial

/-- Settles O54: the two cores have one `OUT`, so not even a write of `OUTLEN` alone tells them apart. -/
theorem resetValuesNeverMatter : Obligations.ResetValuesNeverMatter := by
  intro es k mode pad iv
  have hreset : SameWithOut State.reset { State.reset with k := k, cfg := ⟨false, mode, pad⟩, ivr := iv } :=
    ⟨⟨⟨rfl, rfl, rfl, rfl⟩, rfl, rfl, rfl, rfl, rfl, nofun, nofun, nofun⟩, rfl⟩
  have hrun := runEvents_related (P := fun _ => True) (fun e _ _ _ hst => SameWithOut.sameOutcome_hostStep hst e) es
    (fun _ _ => trivial) _ _ hreset
  exact hrun.mono fun _ _ hst => hst.sameForHost

/-! ### Unspecified operands, once loaded -/

section
variable {s t : State}

theorem SameWithinLengths.refl (s : State) : SameWithinLengths s s :=
  ⟨fun _ => rfl, fun _ _ _ => rfl, rfl, rfl, rfl, fun _ => rfl, fun _ => rfl, fun _ _ => rfl⟩

/-- Two such cores have each buffer alike within its length. -/
theorem SameWithinLengths.buf (h : SameWithinLengths s t) (b : BufId) : (s.buf b).SameWithin (t.buf b) :=
  ⟨h.len b, h.byte b⟩

/-- A command reads no byte beyond a length register (20_memory.md R42). -/
theorem SameWithinLengths.inputs (h : SameWithinLengths s t) : SameInputs s t where
  message := by
    have hlen : t.inBuf.len = s.inBuf.len := h.len .inp
    rw [State.message, hlen]
    exact (h.buf .inp).readRange le_rfl
  valid := h.valid
  cfg := h.cfg
  k := h.k
  ivr := h.ivr
  keyLen := h.len .key
  ivLen := h.len .iv
  key h8 := congrArg toBlock ((h.buf .key).readRange h8.ge)
  iv h8 := congrArg toBlock ((h.buf .iv).readRange h8.ge)
  draws := h.draws

/-- A change that keeps the changed buffer alike within its length keeps every buffer so. -/
theorem SameWithinLengths.onHostBuf (h : SameWithinLengths s t) {b : BufId} {f : Buffer → Buffer}
    (hf : (f (s.buf b)).SameWithin (f (t.buf b))) : SameWithinLengths (s.onHostBuf b f) (t.onHostBuf b f) := by
  have hbuf (c : BufId) : ((s.onHostBuf b f).buf c).SameWithin ((t.onHostBuf b f).buf c) := by
    rw [onHostBuf_buf, onHostBuf_buf]
    split_ifs with hc
    · exact hc ▸ hf
    · exact h.buf c
  cases b <;>
    exact ⟨fun c => (hbuf c).len, fun c => (hbuf c).byte, h.status, h.draws, h.valid, h.cfg, h.k, h.ivr⟩

/-- The host writes the same word into both, whatever their words were. -/
theorem SameWithinLengths.withCmd (h : SameWithinLengths s t) (w : Byte) :
    SameWithinLengths { s with cmd := w } { t with cmd := w } where
  len b := by simpa using h.len b
  byte b := by simpa [State.readByte] using h.byte b
  status := h.status
  draws := h.draws
  valid := h.valid
  cfg := h.cfg
  k := h.k
  ivr := h.ivr

/-- Where the operands stay and both cores deliver the same, every buffer stays alike within its length. -/
theorem SameWithinLengths.buf_of_delivered (h : SameWithinLengths s t) {u v : State} (hu : SameOperands s u)
    (hv : SameOperands t v) {bytes : List Byte} (hou : u.outBuf = outBufferOf bytes s.draws)
    (hov : v.outBuf = outBufferOf bytes t.draws) : ∀ b, (u.buf b).SameWithin (v.buf b)
  | .key => by rw [buf_key, buf_key, hu.keyBuf, hv.keyBuf]; exact h.buf .key
  | .iv => by rw [buf_iv, buf_iv, hu.ivBuf, hv.ivBuf]; exact h.buf .iv
  | .inp => by rw [buf_inp, buf_inp, hu.inBuf, hv.inBuf]; exact h.buf .inp
  | .out => by rw [buf_out, buf_out, hou, hov, h.draws]; exact ⟨rfl, fun _ _ => rfl⟩

/-- Every end of a command keeps two such cores so. -/
theorem SameWithinLengths.ends (h : SameWithinLengths s t) : EndsRelated SameWithinLengths s t := by
  have hdraws : t.draws + 1 = s.draws + 1 := by rw [h.draws]
  refine ⟨fun e => ?_, fun bytes => ?_, fun K mode pad iv => ?_⟩
  · have hbuf := h.buf_of_delivered (raiseError_raised s e).operands (raiseError_raised t e).operands rfl rfl
    exact ⟨fun b => (hbuf b).len, fun b => (hbuf b).byte, rfl, hdraws, h.valid, h.cfg, h.k, h.ivr⟩
  · have hbuf := h.buf_of_delivered (deliver_delivered bytes s).operands (deliver_delivered bytes t).operands rfl rfl
    exact ⟨fun b => (hbuf b).len, fun b => (hbuf b).byte, rfl, hdraws, h.valid, h.cfg, h.k, h.ivr⟩
  · have hbuf := h.buf_of_delivered (u := installInstance K mode pad iv s) (v := installInstance K mode pad iv t)
      ⟨rfl, rfl, rfl, rfl⟩ ⟨rfl, rfl, rfl, rfl⟩ rfl rfl
    exact ⟨fun b => (hbuf b).len, fun b => (hbuf b).byte, rfl, hdraws, rfl, fun _ => rfl, fun _ => rfl,
      fun _ _ => rfl⟩

/-- Every action but a write of a length alone keeps two such cores so (log entries 20, 21). -/
theorem SameWithinLengths.sameOutcome_hostStep (h : SameWithinLengths s t) {e : HostEvent}
    (he : ∀ b n, e ≠ .setLength b n) : SameOutcome SameWithinLengths (hostStep e s) (hostStep e t) := by
  cases e with
  | load b bytes => exact h.onHostBuf (.load ..)
  | poke b i v => exact h.onHostBuf ((h.buf b).poke i v)
  | setLength b n => exact absurd rfl (he b n)
  | issue w =>
    have hw := h.withCmd w
    exact step_related rfl hw.inputs hw.ends
  | reset => exact sameOutcome_reset .refl h.draws

/-- And so does every sequence of them. -/
theorem SameWithinLengths.sameOutcome_runEvents (h : SameWithinLengths s t) {es : List HostEvent}
    (hes : ∀ b n, .setLength b n ∉ es) : SameOutcome SameWithinLengths (runEvents es s) (runEvents es t) :=
  runEvents_related (P := fun e => ∀ b n, e ≠ .setLength b n) (fun _ he _ _ hst => hst.sameOutcome_hostStep he) es
    (fun _ he b n heq => hes b n (heq ▸ he)) s t h

end

/-- The state once the host has loaded the three operands (30_encoding.md R67). -/
def State.loaded (s : State) (key iv msg : List Byte) : State :=
  { s with keyBuf := s.keyBuf.load key, ivBuf := s.ivBuf.load iv, inBuf := s.inBuf.load msg }

/-- Loading the three operands first, then the rest. -/
theorem runEvents_loads (s : State) (key iv msg : List Byte) (es : List HostEvent) :
    runEvents ([.load .key key, .load .iv iv, .load .inp msg] ++ es) s = runEvents es (s.loaded key iv msg) := rfl

/-- Two cores with `VALID = 0` and nothing delivered are alike once loaded, whatever else they held. -/
theorem sameWithinLengths_loaded {s t : State} (key iv msg : List Byte) (hs : s.cfg.valid = false)
    (ht : t.cfg.valid = false) (hstatus : t.status = s.status) (hdraws : t.draws = s.draws) (hso : s.outBuf.len = 0)
    (hto : t.outBuf.len = 0) : SameWithinLengths (s.loaded key iv msg) (t.loaded key iv msg) := by
  have hbuf : ∀ b, ((s.loaded key iv msg).buf b).SameWithin ((t.loaded key iv msg).buf b)
    | .key => .load s.keyBuf t.keyBuf key
    | .iv => .load s.ivBuf t.ivBuf iv
    | .inp => .load s.inBuf t.inBuf msg
    | .out => ⟨hto.trans hso.symm, fun i hi => absurd (hso ▸ hi) (Nat.not_lt_zero i)⟩
  have hno {P : Prop} (hv : s.cfg.valid = true) : P := absurd hv (by simp [hs])
  exact ⟨fun b => (hbuf b).len, fun b => (hbuf b).byte, hstatus, hdraws, ht.trans hs.symm, hno, hno, hno⟩

/-- Settles O59: loading makes the two cores alike within the lengths, and every allowed action keeps them so. -/
theorem unspecifiedOperandsAreNeverObservedOnceLoaded : Obligations.UnspecifiedOperandsAreNeverObservedOnceLoaded := by
  refine ⟨fun es s t h hes => h.sameOutcome_runEvents hes, fun es s key iv msg hes hvalid hstatus hlen hdraws => ?_⟩
  rw [runEvents_loads, runEvents_loads]
  exact (sameWithinLengths_loaded key iv msg rfl hvalid hstatus hdraws rfl hlen).sameOutcome_runEvents hes

end Sys2Proof.Machine
end

section
/-! PROOFS. Scope: the operand buffers and what commands do with them (20_memory.md R40 to R45, R49, R56), and the cut
of a message into blocks (44_chaining_padding.md R160). -/

namespace Sys2Proof.Machine

/-! ### Every way a command can end, whatever word stands in `CMD` -/

/-- No core differs from itself in what commands read. -/
theorem SameInputs.refl (s : State) : SameInputs s s :=
  ⟨⟨rfl, rfl, fun _ => rfl, fun _ => rfl, fun _ _ => rfl⟩, rfl, rfl, fun _ => rfl, fun _ => rfl, rfl⟩

/-- A command ends the same way on the same inputs. -/
theorem exec_related {R : State → State → Prop} {s t : State} (i : Instr) (h : SameInputs s t)
    (hR : EndsRelated R s t) : SameOutcome R (exec i s) (exec i t) := by
  cases i with
  | construct mode pad => exact execConstruct_related mode pad h hR
  | encrypt => exact execEncrypt_related h.toSameCipherInputs hR
  | decrypt => exact decryptWith_related unpadZero h.toSameCipherInputs hR

/-- What holds after an error, after a delivery and after a CONSTRUCT holds after every command that answers. -/
theorem exec_post {P : State → Prop} {i : Instr} {s t : State} (hraise : ∀ e, P (raiseError e s))
    (hdeliver : ∀ bytes, P (deliver bytes s)) (hinstall : ∀ K mode pad iv, P (installInstance K mode pad iv s))
    (h : exec i s = .next t) : P t := by
  have hends : EndsRelated (fun _ u => P u) s s := ⟨hraise, hdeliver, hinstall⟩
  have hout := exec_related i (.refl s) hends
  rwa [h] at hout

/-! ### The operand buffers -/

/-- CONSTRUCT's end leaves the operands alone, whatever it installs (44_chaining_padding.md R161). -/
theorem installInstance_operands (K : SubkeyFile) (mode : Mode) (pad : Padding) (iv : Block) (s : State) :
    SameOperands s (installInstance K mode pad iv s) := ⟨rfl, rfl, rfl, rfl⟩

/-- No command writes `CMD`, an operand buffer or its length (20_memory.md R56). -/
theorem exec_operands {i : Instr} {s t : State} (h : exec i s = .next t) : SameOperands s t :=
  exec_post (fun e => (raiseError_raised s e).operands) (fun bytes => (deliver_delivered bytes s).operands)
    (fun K mode pad iv => installInstance_operands K mode pad iv s) h

/-- The same operands are the same three buffers. -/
theorem SameOperands.buf_eq {s t : State} (h : SameOperands s t) {b : BufId} (hb : b ≠ .out) : t.buf b = s.buf b := by
  cases b with
  | key => exact h.keyBuf
  | iv => exact h.ivBuf
  | inp => exact h.inBuf
  | out => exact absurd rfl hb

/-- Settles O13: each of the three ends of a command leaves the operands alone, and a byte is read from its buffer. -/
theorem operandBuffersAreNeverWritten : Obligations.OperandBuffersAreNeverWritten := by
  refine fun i s t h => ⟨exec_operands h, fun b a hb => ?_⟩
  rw [State.readByte, (exec_operands h).buf_eq hb, State.readByte]

/-- A read outside the buffer gives nothing (20_memory.md R42; log entry 14). -/
theorem memRead_eq_none (s : State) (b : BufId) (off n : Nat) (h : ¬ off + n ≤ (s.buf b).len) :
    memRead s b off n = none := if_neg h

/-- Settles O15: MemRead is the bytes of the range where it lies within the length, and nothing where it does not. -/
theorem memReadReturnsTheRange : Obligations.MemReadReturnsTheRange :=
  fun s b off n => ⟨fun h => ⟨_, memRead_eq_some s b off n h, readRange_length .., readRange_getElem _ off n⟩,
    memRead_eq_none s b off n⟩

/-! ### `OUT`: made by every command, read by none -/

/-- Settles O57: neither a step nor a reset needs more than the host part to make the invariant whole. -/
theorem everyCommandMakesOutItsOwn : Obligations.EveryCommandMakesOutItsOwn := by
  rintro s t hs (h | h)
  · exact step_inv hs h
  · cases h
    exact afterReset_inv s

/-- Outcomes alike by equality are equal. -/
theorem SameOutcome.eq {o p : Host.Outcome State Fault Refusal} (h : SameOutcome Eq o p) : o = p := by
  cases o <;> cases p <;> simp_all [SameOutcome]

/-- `OUT` is no input of a command (20_memory.md R40). -/
theorem sameInputs_withOut (s : State) (out : Buffer) : SameInputs { s with outBuf := out } s :=
  { SameInputs.refl s with }

/-- Every end of a command puts another `OUT` in place, and nothing of the old one is left (20_memory.md R43; log
entry 5). -/
theorem endsEqual_withOut (s : State) (out : Buffer) : EndsRelated Eq { s with outBuf := out } s :=
  ⟨fun _ => rfl, fun _ => rfl, fun _ _ _ _ => rfl⟩

/-- Settles O58: `OUT` is neither read nor left in place. -/
theorem noCommandReadsOut : Obligations.NoCommandReadsOut := fun i s out =>
  have hcmd : s.cmd = State.cmd { s with outBuf := out } := rfl
  have hin := sameInputs_withOut s out
  have hends := endsEqual_withOut s out
  ⟨(exec_related i hin hends).eq, (step_related hcmd hin hends).eq⟩

/-! ### Blocks in byte order -/

/-- Equal lengths: a position keeps its bit. -/
theorem bitAt_setWidth {v w : Nat} (h : v = w) (s : BitVec v) (p : Nat) : bitAt (s.setWidth w) p = bitAt s p := by
  subst h
  rw [BitVec.setWidth_eq]

/-- Bit `8 - j` of byte `k` of eight bytes is position `8k + j` of the block (20_memory.md R45). -/
theorem bitAt_toBlock {B : List Byte} (h : B.length = 8) (k j : Nat) (hk : k < B.length) (h1 : 1 ≤ j) (h8 : j ≤ 8) :
    bitAt (toBlock B) (8 * k + j) = B[k].getLsbD (8 - j) := by
  rw [toBlock, bitAt_setWidth (by rw [h]), bitAt_bytesToBits B k j hk h1 h8]

/-- Bytes `8i .. 8i+7` of a list of blocks put together are the bytes of block `i` (44_chaining_padding.md R160). -/
theorem take_drop_bytesOf (bs : List Block) (i : Nat) (hi : i < bs.length) :
    ((bytesOf bs).drop (8 * i)).take 8 = blockBytes bs[i] := by
  induction bs generalizing i with
  | nil => simp at hi
  | cons b bs ih =>
    have hcons : bytesOf (b :: bs) = blockBytes b ++ bytesOf bs := rfl
    rw [hcons]
    cases i with
    | zero => exact List.take_left' (blockBytes_length b)
    | succ i =>
      have hdrop : (blockBytes b ++ bytesOf bs).drop (8 * (i + 1)) = (bytesOf bs).drop (8 * i) := by
        rw [Nat.mul_succ, Nat.add_comm, ← List.drop_drop, List.drop_left' (blockBytes_length b)]
      rw [hdrop, ih i (by simpa using hi), List.getElem_cons_succ]

/-- Block `i` of a message of whole blocks is made of its bytes `8i .. 8i+7` (44_chaining_padding.md R160). -/
theorem blocksOf_getElem? {m : List Byte} (hm : m.length % 8 = 0) {i : Nat} (hi : i < m.length / 8) :
    (blocksOf m)[i]? = some (toBlock ((m.drop (8 * i)).take 8)) := by
  have hi' : i < (blocksOf m).length := by rwa [blocksOf_length m hm]
  have hbytes := take_drop_bytesOf (blocksOf m) i hi'
  rw [bytesOf_blocksOf m hm] at hbytes
  rw [hbytes, toBlock_blockBytes, List.getElem?_eq_getElem hi']

/-- Settles O38: position `p` is position `(p-1) mod 8 + 1` of its byte, and the message is its blocks put together. -/
theorem blocksAreCutInByteOrder : Obligations.BlocksAreCutInByteOrder := by
  refine ⟨fun B p hB h1 hp => ?_, fun m i hm => blocksOf_getElem? hm⟩
  have hk : (p - 1) / 8 < B.length := by omega
  have hpos : 8 * ((p - 1) / 8) + ((p - 1) % 8 + 1) = p := by omega
  have hbit : 8 - ((p - 1) % 8 + 1) = 7 - (p - 1) % 8 := by omega
  have h := bitAt_toBlock hB _ ((p - 1) % 8 + 1) hk (by omega) (by omega)
  rw [hpos, hbit] at h
  rw [h, List.getD_eq_getElem _ _ hk]

end Sys2Proof.Machine
end

section
/-! PROOFS. Scope: command words and what the host's load and issue do with them (30_encoding.md R60 to R67,
60_exceptions.md R202, R206, 20_memory.md R40, R49). -/

namespace Sys2Proof.Machine

/-! ### CONSTRUCT under ECB -/

/-- Settles O18: the key's length alone decides how CONSTRUCT ends in ECB, and neither end looks at `IVBUF`. -/
theorem ecbConstructIgnoresTheIv : Obligations.EcbConstructIgnoresTheIv := by
  intro pad s iv
  by_cases hk : s.keyBuf.len = 8
  · exact ⟨_, execConstruct_ok .ecb pad hk nofun, execConstruct_ok .ecb pad (s := { s with ivBuf := iv }) hk nofun⟩
  · exact ⟨_, execConstruct_badKey .ecb pad hk, execConstruct_badKey .ecb pad (s := { s with ivBuf := iv }) hk⟩

/-! ### Decoding and encoding -/

/-- The decoder reads every command back from its word (30_encoding.md R62, R63, R64). -/
theorem decode_encode (i : Instr) : decode (encode i) = .ok i := by
  have hrow : Laws.OpcodeRow.Statement i := by
    cases i with
    | construct mode pad => exact Laws.OpcodeRow.construct mode pad
    | encrypt => exact Laws.OpcodeRow.encrypt
    | decrypt => exact Laws.OpcodeRow.decrypt
  obtain ⟨-, -, hdecode⟩ := hrow
  exact hdecode

/-- Settles O1: the six words are the encodings of the six commands. -/
theorem sixWordsDecode : Obligations.SixWordsDecode :=
  ⟨decode_encode (.construct .ecb .none), decode_encode (.construct .cbc .none),
    decode_encode (.construct .ecb .pkcs5), decode_encode (.construct .cbc .pkcs5),
    decode_encode .encrypt, decode_encode .decrypt⟩

/-- A mode's code names it (30_encoding.md R61). -/
@[simp] theorem bit_modeOfBit (b : BitVec 1) : (modeOfBit b).bit = b := by
  obtain rfl | rfl := BitVec.eq_zero_or_eq_one b <;> rfl

/-- A padding's code names it (30_encoding.md R61). -/
@[simp] theorem bit_paddingOfBit (b : BitVec 1) : (paddingOfBit b).bit = b := by
  obtain rfl | rfl := BitVec.eq_zero_or_eq_one b <;> rfl

/-- The four fields lie side by side and are the whole word (30_encoding.md R61). -/
@[simp] theorem wordOfFields_fieldsOf (w : Byte) : wordOfFields (fieldsOf w) = w := by
  simp only [wordOfFields, fieldsOf]
  rw [BitVec.extractLsb'_append_extractLsb'_eq_extractLsb' (show 4 = 3 + 1 from rfl),
    BitVec.extractLsb'_append_extractLsb'_eq_extractLsb' (show 3 = 2 + 1 from rfl),
    BitVec.extractLsb'_append_extractLsb'_eq_extractLsb' (show 2 = 0 + 2 from rfl)]
  exact BitVec.extractLsb'_eq_self

/-- What makes fields legal, field by field (30_encoding.md R66). -/
theorem cmdFields_wf_iff (f : CmdFields) :
    f.wf = true ↔ f.rsv = 0#4 ∧ f.op ≠ 3#2 ∧ (f.op = 0#2 ∨ f.mode = 0#1 ∧ f.pad = 0#1) := by
  simp [CmdFields.wf, CmdFields.reservedClear, CmdFields.opKnown, CmdFields.optionsAllowed, and_assoc]

/-- Only legal fields decode: each of the three tests is one part of being legal (30_encoding.md R66). -/
theorem wf_of_decodeFields {f : CmdFields} {i : Instr} (h : decodeFields f = .ok i) : f.wf = true := by
  unfold decodeFields at h
  split_ifs at h with hrsv hop hopt <;> simp_all [CmdFields.wf]

/-- Legal fields stand for the command that `OP` names (30_encoding.md R61). -/
theorem decodeFields_of_wf {f : CmdFields} (h : f.wf = true) :
    decodeFields f =
      if f.op = 0#2 then .ok (.construct (modeOfBit f.mode) (paddingOfBit f.pad))
      else if f.op = 1#2 then .ok .encrypt
      else .ok .decrypt := by
  simp only [CmdFields.wf, Bool.and_eq_true] at h
  obtain ⟨⟨hrsv, hop⟩, hopt⟩ := h
  simp [decodeFields, hrsv, hop, hopt]

/-- Fields that decode are the fields of the command they stand for (30_encoding.md R62, R63, R64). -/
theorem fields_of_decodeFields {f : CmdFields} {i : Instr} (h : decodeFields f = .ok i) : i.fields = f := by
  have hwf := wf_of_decodeFields h
  rw [decodeFields_of_wf hwf] at h
  obtain ⟨hrsv, h3, hopt⟩ := (cmdFields_wf_iff f).mp hwf
  obtain ⟨rsv, pad, mode, op⟩ := f
  obtain rfl : rsv = 0#4 := hrsv
  split_ifs at h with h0 h1 <;> obtain rfl := Except.ok.inj h
  · obtain rfl : op = 0#2 := h0
    simp [Instr.fields]
  · obtain ⟨rfl, rfl⟩ : mode = 0#1 ∧ pad = 0#1 := hopt.resolve_left h0
    obtain rfl : op = 1#2 := h1
    rfl
  · obtain ⟨rfl, rfl⟩ : mode = 0#1 ∧ pad = 0#1 := hopt.resolve_left h0
    obtain rfl : op = 2#2 := by bv_omega
    rfl

/-- The encoder puts back the fields the decoder took (30_encoding.md R61, R66). -/
theorem encode_of_decode {w : Byte} {i : Instr} (h : decode w = .ok i) : encode i = w := by
  rw [encode, fields_of_decodeFields h, wordOfFields_fieldsOf]

/-- Settles O2: a command has the fields it was decoded from, so its word and its form are theirs. -/
theorem decodeInvertsEncode : Obligations.DecodeInvertsEncode := by
  refine ⟨fun i _ => decode_encode i, fun w i h => ⟨encode_of_decode h, ?_⟩⟩
  rw [Instr.wf, fields_of_decodeFields h]
  exact wf_of_decodeFields h

/-! ### Legal and illegal words -/

/-- A word is legal exactly when it is one of the six (30_encoding.md R66). -/
theorem exists_decode_eq_ok_iff (w : Byte) :
    (∃ i, decode w = .ok i) ↔ w ∈ [0x00#8, 0x04#8, 0x08#8, 0x0C#8, 0x01#8, 0x02#8] := by
  constructor
  · rintro ⟨i, hi⟩
    obtain rfl := encode_of_decode hi
    cases i with
    | construct mode pad => cases mode <;> cases pad <;> decide
    | encrypt => decide
    | decrypt => decide
  · obtain ⟨h00, h04, h08, h0C, h01, h02⟩ := sixWordsDecode
    simp only [List.mem_cons, List.not_mem_nil, or_false]
    rintro (rfl | rfl | rfl | rfl | rfl | rfl)
    exacts [⟨_, h00⟩, ⟨_, h04⟩, ⟨_, h08⟩, ⟨_, h0C⟩, ⟨_, h01⟩, ⟨_, h02⟩]

/-- A word that is no command starts no operation (30_encoding.md R66, 60_exceptions.md R206). -/
theorem step_raises_of_illegal {s : State} (h : ∀ i, decode s.cmd ≠ .ok i) :
    ∃ t, step s = .next t ∧ Raised .illegalCommand s t := by
  cases hd : decode s.cmd with
  | ok i => exact absurd hd (h i)
  | error e => exact ⟨_, step_of_decode_error hd, raiseError_raised s .illegalCommand⟩

/-- Settles O3: the six words are all that decodes, and the step raises the error for the rest. -/
theorem illegalWordsRaiseIllegalCommand : Obligations.IllegalWordsRaiseIllegalCommand :=
  fun s => ⟨exists_decode_eq_ok_iff s.cmd,
    fun h => step_raises_of_illegal fun i hi => h ((exists_decode_eq_ok_iff s.cmd).mp ⟨i, hi⟩)⟩

/-! ### What the host's load and issue do -/

/-- Settles O56: issuing a word is the step from the state with that word in `CMD`. -/
theorem hostIssueRunsTheWord : Obligations.HostIssueRunsTheWord :=
  fun w s => ⟨fun _ h => step_of_decode_ok (s := { s with cmd := w }) h,
    fun h => step_raises_of_illegal (s := { s with cmd := w }) h⟩

/-- A buffer loaded with eight bytes holds their block. -/
theorem toBlock_load_readRange (b : Buffer) {bytes : List Byte} (h : bytes.length = 8) :
    toBlock ((b.load bytes).readRange 0 8) = toBlock bytes := by
  rw [← h, load_readRange]

/-- Settles O16: a load changes one buffer, and that buffer reads back what it was loaded with. -/
theorem hostLoadFillsOneBuffer : Obligations.HostLoadFillsOneBuffer := by
  refine fun b s bytes => ⟨_, rfl, onHostBuf_only .., ?_, fun i hi => ?_, fun i hi => ?_, ?_, ?_, ?_, ?_⟩
  · rw [onHostBuf_buf_self, load_len]
  · rw [State.readByte, onHostBuf_buf_self, load_read _ _ i hi]
  · rw [State.readByte, onHostBuf_buf_self, load_read_beyond _ _ i hi, State.readByte]
  · rintro rfl
    exact message_load s bytes
  · rintro rfl h8
    exact toBlock_load_readRange s.keyBuf h8
  · rintro rfl h8
    exact toBlock_load_readRange s.ivBuf h8
  · rintro rfl
    exact load_readRange s.outBuf bytes

end Sys2Proof.Machine
end

section
/-! PROOFS. Scope: the permutation engine and the properties of its six tables (40_permutation_engine.md R80, R82,
R89). -/

namespace Sys2Proof.Machine

/-! ### PERMUTE -/

/-- Settles O26: the law of the engine, at position `i + 1`. -/
theorem permuteMovesEachBit : Obligations.PermuteMovesEachBit :=
  fun _ _ T s _ i hi => bitAt_permute T s (i + 1) (by omega) hi

/-- An entry of a table is the entry of its list at the same index. -/
theorem toList_getD {m : Nat} (T : Vector Nat m) {i : Nat} (hi : i < m) : T.toList.getD i 0 = T[i] := by
  rw [List.getD_eq_getElem _ _ (by simpa using hi), Vector.getElem_toList]

/-- The entries of a well-formed table are positions of its input (40_permutation_engine.md R82). -/
theorem entry_bounds_of_permTableWf {m w : Nat} {T : Vector Nat m} (h : permTableWf w T = true) {i : Nat} (hi : i < m) :
    1 ≤ T[i] ∧ T[i] ≤ w := by
  have hmem : T[i] ∈ T.toList := by simp
  simpa using List.all_eq_true.mp h _ hmem

/-- A table that leads every position back undoes the other on sequences (40_permutation_engine.md R80, R89). -/
theorem permute_permute_of_inverse {m w : Nat} {S : Vector Nat w} {T : Vector Nat m} (hS : permTableWf m S = true)
    (hinv : ∀ p, 1 ≤ p → p ≤ w → T.toList.getD (S.toList.getD (p - 1) 0 - 1) 0 = p) (s : BitVec w) :
    permute S (permute T s) = s := by
  refine eq_of_bitAt fun p h1 hp => ?_
  have hp' : p - 1 < w := by omega
  obtain ⟨hS1, hSm⟩ := entry_bounds_of_permTableWf hS hp'
  have hback := hinv p h1 hp
  rw [toList_getD S hp', toList_getD T (by omega)] at hback
  rw [bitAt_permute S _ p h1 hp, bitAt_permute T s _ hS1 hSm, hback]

/-! ### The tables -/

/-- In a rearrangement of `1..n` every position appears once. -/
theorem count_eq_one_of_perm_range' {l : List Nat} {n : Nat} (h : l.Perm (List.range' 1 n)) (p : Nat) (h1 : 1 ≤ p)
    (hp : p ≤ n) : l.count p = 1 := by
  have hmem : p ∈ List.range' 1 n := List.mem_range'_1.mpr (by omega)
  rw [h.count_eq, List.count_eq_one_of_mem List.nodup_range' hmem]

/-- `IP` rearranges the 64 positions (40_permutation_engine.md R89). -/
theorem tableIP_perm : tableIP.toList.Perm (List.range' 1 64) := by decide

/-- `FP` rearranges the 64 positions (40_permutation_engine.md R89). -/
theorem tableFP_perm : tableFP.toList.Perm (List.range' 1 64) := by decide

/-- `P` rearranges the 32 positions (40_permutation_engine.md R89). -/
theorem tableP_perm : tableP.toList.Perm (List.range' 1 32) := by decide

/-- `IP` takes back what `FP` does to positions (40_permutation_engine.md R89). -/
theorem tableIP_tableFP : ∀ i, 1 ≤ i → i ≤ 64 →
    tableIP.toList.getD (tableFP.toList.getD (i - 1) 0 - 1) 0 = i := by decide

/-- `FP` takes back what `IP` does to positions (40_permutation_engine.md R89). -/
theorem tableFP_tableIP : ∀ i, 1 ≤ i → i ≤ 64 →
    tableFP.toList.getD (tableIP.toList.getD (i - 1) 0 - 1) 0 = i := by decide

/-- `FP` undoes `IP` on every sequence (40_permutation_engine.md R89). -/
theorem permute_tableFP_permute_tableIP (s : Block) : permute tableFP (permute tableIP s) = s :=
  permute_permute_of_inverse (by decide) tableIP_tableFP s

/-- `PC1` repeats no position (40_permutation_engine.md R89). -/
theorem tablePC1_nodup : tablePC1.toList.Nodup := by decide

/-- `PC1` takes no parity position (40_permutation_engine.md R89). -/
theorem tablePC1_not_multiple_of_8 : ∀ p ∈ tablePC1.toList, p % 8 ≠ 0 := by decide

/-- `PC2` repeats no position (40_permutation_engine.md R89). -/
theorem tablePC2_nodup : tablePC2.toList.Nodup := by decide

/-- `E` takes every position of its input (40_permutation_engine.md R89). -/
theorem tableE_covers : ∀ p, 1 ≤ p → p ≤ 32 → p ∈ tableE.toList := by decide

/-- Settles O27: `IP`, `FP` and `P` rearrange the positions, and `FP` undoes `IP` bit by bit. -/
theorem tablesHaveTheirProperties : Obligations.TablesHaveTheirProperties :=
  ⟨fun p h1 hp => ⟨count_eq_one_of_perm_range' tableIP_perm p h1 hp, count_eq_one_of_perm_range' tableFP_perm p h1 hp⟩,
    count_eq_one_of_perm_range' tableP_perm,
    fun i h1 hi => ⟨tableFP_tableIP i h1 hi, tableIP_tableFP i h1 hi⟩,
    permute_tableFP_permute_tableIP,
    ⟨tablePC1_nodup, tablePC1_not_multiple_of_8⟩,
    tablePC2_nodup,
    tableE_covers⟩

end Sys2Proof.Machine
end

section
/-! PROOFS. Scope: the key schedule, the order in which rounds read the subkeys, and what two cores of the same
key share (41_key_schedule.md R101 to R110). -/

namespace Sys2Proof.Machine

/-! ### ROTL28 -/

/-- Position `i` of a sequence rotated left by `r` (41_key_schedule.md R103). -/
theorem bitAt_rotateLeft {w : Nat} (x : BitVec w) (r i : Nat) (h1 : 1 ≤ i) (hi : i ≤ w) :
    bitAt (x.rotateLeft r) i = bitAt x ((i - 1 + r) % w + 1) := by
  have hlt : i - 1 < w := by omega
  simp [bitAt, BitVec.getMsbD_rotateLeft, hlt, Nat.add_comm r]

/-- Two rotations are one, by both numbers together. -/
theorem rotateLeft_rotateLeft {w : Nat} (x : BitVec w) (r s : Nat) :
    (x.rotateLeft r).rotateLeft s = x.rotateLeft (r + s) := by
  refine eq_of_bitAt fun i h1 hi => ?_
  have hlt : (i - 1 + s) % w < w := Nat.mod_lt _ (by omega)
  have hpos : ((i - 1 + s) % w + r) % w = (i - 1 + (r + s)) % w := by
    rw [Nat.mod_add_mod, Nat.add_assoc, Nat.add_comm s]
  rw [bitAt_rotateLeft _ _ i h1 hi, bitAt_rotateLeft _ _ _ (by omega) (by omega), Nat.add_sub_cancel, hpos,
    bitAt_rotateLeft _ _ i h1 hi]

/-- A full turn changes nothing (41_key_schedule.md R104). -/
theorem rotateLeft_fullTurn {w : Nat} (x : BitVec w) : x.rotateLeft w = x := by
  refine eq_of_bitAt fun i h1 hi => ?_
  have hpos : (i - 1 + w) % w + 1 = i := by rw [Nat.add_mod_right, Nat.mod_eq_of_lt (by omega), Nat.sub_add_cancel h1]
  rw [bitAt_rotateLeft _ _ i h1 hi, hpos]

/-- No turn changes nothing. -/
theorem rotateLeft_noTurn {w : Nat} (x : BitVec w) : x.rotateLeft 0 = x :=
  calc x.rotateLeft 0 = x.rotateLeft (w % w) := by rw [Nat.mod_self]
    _ = x.rotateLeft w := BitVec.rotateLeft_mod_eq_rotateLeft
    _ = x := rotateLeft_fullTurn x

/-- All zeros stay all zeros. -/
theorem rotateLeft_zeros {w : Nat} (r : Nat) : (0#w).rotateLeft r = 0#w :=
  eq_of_bitAt fun i h1 hi => by rw [bitAt_rotateLeft _ _ i h1 hi]; simp [bitAt]

/-- All ones stay all ones. -/
theorem rotateLeft_allOnes {w : Nat} (r : Nat) : (BitVec.allOnes w).rotateLeft r = BitVec.allOnes w := by
  refine eq_of_bitAt fun i h1 hi => ?_
  have hlt : (i - 1 + r) % w < w := Nat.mod_lt _ (by omega)
  have hlt' : i - 1 < w := by omega
  rw [bitAt_rotateLeft _ _ i h1 hi]
  simp [bitAt, hlt, hlt']

/-- `ROTL28` is the rotation of 28 positions (41_key_schedule.md R103). -/
theorem rotl28_eq_rotateLeft (x : KeyHalf) {s : Nat} (hs : s < 28) : rotl28 x s = x.rotateLeft s := by
  rw [BitVec.rotateLeft_def, Nat.mod_eq_of_lt hs, rotl28]

/-- `ROTL28` as an integer: what is shifted out comes in at the low end (41_key_schedule.md R103). -/
theorem rotl28_toNat (x : KeyHalf) {s : Nat} (hs : s ≤ 28) :
    (rotl28 x s).toNat = x.toNat * 2 ^ s % 2 ^ 28 + x.toNat / 2 ^ (28 - s) := by
  have hpow : 2 ^ 28 = 2 ^ (28 - s) * 2 ^ s := by rw [← Nat.pow_add, Nat.sub_add_cancel hs]
  have hkept : x.toNat * 2 ^ s % 2 ^ 28 = (x.toNat % 2 ^ (28 - s)) <<< s := by
    rw [hpow, Nat.mul_mod_mul_right, Nat.shiftLeft_eq]
  have hout : x.toNat / 2 ^ (28 - s) < 2 ^ s := Nat.div_lt_of_lt_mul (hpow ▸ x.isLt)
  rw [rotl28, BitVec.toNat_or, BitVec.toNat_shiftLeft, BitVec.toNat_ushiftRight, Nat.shiftLeft_eq,
    Nat.shiftRight_eq_div_pow, hkept, Nat.shiftLeft_add_eq_or_of_lt hout]

/-- Settles O24: `ROTL28` is a rotation, and every clause but the integer's is a fact about rotations of any width. -/
theorem rotationMovesEveryBitAround : Obligations.RotationMovesEveryBitAround := by
  intro x s hs
  have hlt : s < 28 := by omega
  refine ⟨fun i h1 hi => ?_, rotl28_toNat x hlt.le, ?_, ?_, ?_⟩
  · rw [rotl28_eq_rotateLeft x hlt, bitAt_rotateLeft x s i h1 hi]
  · rw [rotl28_eq_rotateLeft x (by decide), rotl28_eq_rotateLeft x (by decide), rotl28_eq_rotateLeft _ (by decide),
      rotateLeft_rotateLeft]
  · rw [rotl28_eq_rotateLeft _ hlt, rotateLeft_zeros]
  · rw [rotl28_eq_rotateLeft _ hlt, rotateLeft_allOnes]

/-! ### The halves by running totals -/

/-- `SHIFT(n)` is 1 or 2 (41_key_schedule.md R104). -/
theorem shiftAmount_lt (n : Nat) : shiftAmount n < 28 := by
  unfold shiftAmount
  split_ifs <;> decide

/-- The running total of `SHIFT` after round `n` (41_key_schedule.md R104). -/
def shiftTotal : Nat → Nat
  | 0 => 0
  | n + 1 => shiftTotal n + shiftAmount (n + 1)

/-- `C_n` and `D_n` are `C_0` and `D_0` rotated left by the `n`-th total (41_key_schedule.md R104). -/
theorem keyHalvesAfter_eq_rotateLeft (key : Block) (n : Nat) :
    keyHalvesAfter key n =
      ((pc1Split key).1.rotateLeft (shiftTotal n), (pc1Split key).2.rotateLeft (shiftTotal n)) := by
  induction n with
  | zero => rw [shiftTotal, rotateLeft_noTurn, rotateLeft_noTurn, keyHalvesAfter]
  | succ n ih =>
    have hs := shiftAmount_lt (n + 1)
    rw [keyHalvesAfter, ih, rotl28_eq_rotateLeft _ hs, rotl28_eq_rotateLeft _ hs, rotateLeft_rotateLeft,
      rotateLeft_rotateLeft, shiftTotal]

/-- `SHIFT` as the rule's table (41_key_schedule.md R104). -/
theorem shiftAmount_eq_table : ∀ n, 1 ≤ n → n ≤ 16 →
    shiftAmount n = [1, 1, 2, 2, 2, 2, 2, 2, 1, 2, 2, 2, 2, 2, 2, 1].getD (n - 1) 0 := by decide

/-- The running totals as the rule's table (41_key_schedule.md R104). -/
theorem shiftTotal_eq_table : ∀ n, 1 ≤ n → n ≤ 16 →
    shiftTotal n = [1, 2, 4, 6, 8, 10, 12, 14, 15, 17, 19, 21, 23, 25, 27, 28].getD (n - 1) 0 := by decide

/-- Settles O22: the halves rotate by the running total, and the totals are the rule's. -/
theorem keyHalvesRotateByRunningTotals : Obligations.KeyHalvesRotateByRunningTotals := by
  refine ⟨shiftAmount_eq_table, fun key n h1 hn => ?_⟩
  rw [keyHalvesAfter_eq_rotateLeft, shiftTotal_eq_table n h1 hn]

/-- After round 16 the halves have made a full turn (41_key_schedule.md R104, R109(b)). -/
theorem keyHalvesAfter_sixteen (key : Block) : keyHalvesAfter key 16 = pc1Split key := by
  have htotal : shiftTotal 16 = 28 := by decide
  rw [keyHalvesAfter_eq_rotateLeft, htotal, rotateLeft_fullTurn, rotateLeft_fullTurn]

/-! ### The subkey registers -/

/-- Register `K[n]` stands at index `n - 1` (10_state.md R21). -/
theorem subkeyReg_eq_getElem (K : SubkeyFile) (n : Nat) (h1 : 1 ≤ n) (hn : n ≤ 16) :
    subkeyReg K n = K[n - 1]'(by omega) := dif_pos ⟨h1, hn⟩

/-- Register `K[n]` of a key schedule holds `K_n` (41_key_schedule.md R106). -/
theorem subkeyReg_keySched (key : Block) (n : Nat) (h1 : 1 ≤ n) (hn : n ≤ 16) :
    subkeyReg (keySched key) n = roundSubkey key n := by
  rw [subkeyReg_eq_getElem _ n h1 hn]
  simp [keySched, Nat.sub_add_cancel h1]

/-- Two neighbouring slices that make up a sequence, put together again (00_scope.md R10). -/
theorem slice_append_slice {v w : Nat} (s : BitVec (v + w)) : slice s 1 v ++ slice s (v + 1) w = s := by
  refine eq_of_bitAt fun p h1 hp => ?_
  rw [bitAt_append _ _ p h1]
  split_ifs with hv
  · rw [bitAt_slice s 1 v p le_rfl (by omega) h1 hv, Nat.add_sub_cancel_left]
  · have hpos : v + 1 + (p - v) - 1 = p := by omega
    rw [bitAt_slice s (v + 1) w (p - v) (by omega) (by omega) (by omega) (by omega), hpos]

/-- The halves of `PC1SPLIT` together are PC1 of the key (41_key_schedule.md R101). -/
theorem pc1Split_append (key : Block) : (pc1Split key).1 ++ (pc1Split key).2 = permute tablePC1 key :=
  slice_append_slice (v := 28) (w := 28) (permute tablePC1 key)

/-- Settles O21: the recursion of the halves is the rule's, and the registers hold PC2 of them. -/
theorem keyScheduleFollowsItsRule : Obligations.KeyScheduleFollowsItsRule := by
  refine fun key => ⟨pc1Split_append key, fun n h1 hn => ⟨?_, ?_⟩⟩
  · obtain ⟨m, rfl⟩ : ∃ m, n = m + 1 := ⟨n - 1, (Nat.sub_add_cancel h1).symm⟩
    rfl
  · rw [subkeyReg_keySched key n h1 hn, roundSubkey, subkeyOf]

/-- Settles O25: both indexes name a register of the one file. -/
theorem decryptionReadsSubkeysInReverse : Obligations.DecryptionReadsSubkeysInReverse := by
  refine fun K n h1 hn => ⟨rfl, rfl, subkeyReg_eq_getElem K n h1 hn, ?_⟩
  have hpos : 17 - n - 1 = 16 - n := by omega
  simp only [ksel, subkeyReg_eq_getElem K (17 - n) (by omega) (by omega), hpos]

/-! ### What of the key reaches the subkeys -/

/-- Subkeys are made from the halves `C_0` and `D_0` alone (41_key_schedule.md R106). -/
theorem keySched_congr {key key' : Block} (h : pc1Split key = pc1Split key') : keySched key = keySched key' := by
  simp only [keySched, roundSubkey, keyHalvesAfter_eq_rotateLeft, h]

/-- PC1 reads no parity position (41_key_schedule.md R102). -/
theorem permute_tablePC1_congr {key key' : Block}
    (h : ∀ p, 1 ≤ p → p ≤ 64 → p % 8 ≠ 0 → bitAt key p = bitAt key' p) :
    permute tablePC1 key = permute tablePC1 key' := by
  refine eq_of_bitAt fun i h1 hi => ?_
  have hlt : i - 1 < 56 := by omega
  have hwf : permTableWf 64 tablePC1 = true := by decide
  obtain ⟨hp1, hp64⟩ := entry_bounds_of_permTableWf hwf hlt
  have hparity := tablePC1_not_multiple_of_8 tablePC1[i - 1] (by simp)
  rw [bitAt_permute _ key i h1 hi, bitAt_permute _ key' i h1 hi, h _ hp1 hp64 hparity]

/-- Settles O20: PC1 does not read the parity positions, and the subkeys are made from what PC1 gives. -/
theorem parityBitsAreDropped : Obligations.ParityBitsAreDropped := by
  intro key key' h
  have hsplit : pc1Split key = pc1Split key' := by rw [pc1Split, permute_tablePC1_congr h, pc1Split]
  exact ⟨hsplit, keySched_congr hsplit⟩

/-- The place `q` of `C_0 ‖ D_0`, counted from 0, that stands at place `q` after both halves rotated left by `r`. -/
def rotatedPlace (r : Nat) (q : Fin 56) : Fin 56 :=
  if q.val < 28 then ⟨(q.val + r) % 28, by omega⟩ else ⟨28 + (q.val - 28 + r) % 28, by omega⟩

/-- Rotation keeps each place in its half (41_key_schedule.md R104). -/
theorem rotatedPlace_lt_iff (r : Nat) (q : Fin 56) : (rotatedPlace r q).val < 28 ↔ q.val < 28 := by
  unfold rotatedPlace
  split_ifs with h
  · simp only [h, iff_true]
    omega
  · simp only [h, iff_false]
    omega

/-- Rotation loses no place (41_key_schedule.md R103). -/
theorem rotatedPlace_injective (r : Nat) : Function.Injective (rotatedPlace r) := by
  intro p q h
  have hhalf : p.val < 28 ↔ q.val < 28 := by rw [← rotatedPlace_lt_iff r p, h, rotatedPlace_lt_iff]
  unfold rotatedPlace at h
  by_cases hp : p.val < 28
  · rw [if_pos hp, if_pos (hhalf.mp hp), Fin.mk.injEq] at h
    omega
  · rw [if_neg hp, if_neg (mt hhalf.mpr hp), Fin.mk.injEq] at h
    omega

/-- A bit of both halves rotated is the bit of the place it came from. -/
theorem bitAt_append_rotateLeft (c d : KeyHalf) (r : Nat) (q : Fin 56) :
    bitAt (c.rotateLeft r ++ d.rotateLeft r) (q.val + 1) = bitAt (c ++ d) ((rotatedPlace r q).val + 1) := by
  have hhalf := rotatedPlace_lt_iff r q
  rw [bitAt_append _ _ _ (by omega), bitAt_append _ _ _ (by omega)]
  by_cases hq : q.val < 28
  · rw [if_pos (by omega), if_pos (by omega), bitAt_rotateLeft c r _ (by omega) (by omega), rotatedPlace, if_pos hq,
      Nat.add_sub_cancel]
  · have hsrc : 28 + (q.val - 28 + r) % 28 + 1 - 28 = (q.val + 1 - 28 - 1 + r) % 28 + 1 := by omega
    rw [if_neg (by omega), if_neg (by omega), bitAt_rotateLeft d r _ (by omega) (by omega), rotatedPlace, if_neg hq,
      hsrc]

/-- The place, counted from 0, that PC2 reads for the subkey's place `j` (40_permutation_engine.md R84). -/
def pc2Place (j : Fin 48) : Fin 56 := Fin.ofNat 56 (tablePC2[j] - 1)

/-- PC2's entries are positions 1 to 56 (40_permutation_engine.md R82). -/
theorem pc2Place_add_one (j : Fin 48) : (pc2Place j).val + 1 = tablePC2[j] := by
  have hwf : permTableWf 56 tablePC2 = true := by decide
  obtain ⟨h1, h56⟩ := entry_bounds_of_permTableWf hwf j.isLt
  simp only [pc2Place, Fin.val_ofNat, Fin.getElem_fin]
  omega

/-- PC2 reads no place twice (40_permutation_engine.md R89). -/
theorem pc2Place_injective : Function.Injective pc2Place := by
  intro i j h
  have hentry : tablePC2.toList[i.val] = tablePC2.toList[j.val] := by
    rw [Vector.getElem_toList, Vector.getElem_toList, ← Fin.getElem_fin, ← Fin.getElem_fin, ← pc2Place_add_one,
      ← pc2Place_add_one, h]
  exact Fin.ext (tablePC2_nodup.getElem_inj_iff.mp hentry)

/-- PC2 fills the first 24 places from `C` and the others from `D` (41_key_schedule.md R109(c)). -/
theorem pc2Place_lt_iff : ∀ j : Fin 48, (pc2Place j).val < 28 ↔ j.val < 24 := by decide

/-- The place of `C_0 ‖ D_0` whose bit is at place `j` of `K_n`, both counted from 0 (41_key_schedule.md R109(c)). -/
def selectedPlace (n : Nat) (j : Fin 48) : Fin 56 := rotatedPlace (shiftTotal n) (pc2Place j)

/-- A bit of `K_n` is the bit of `C_0 ‖ D_0` at the selected place, for every key (41_key_schedule.md R109(c)). -/
theorem bitAt_roundSubkey (key : Block) (n : Nat) (j : Fin 48) :
    bitAt (roundSubkey key n) (j.val + 1) =
      bitAt ((pc1Split key).1 ++ (pc1Split key).2) ((selectedPlace n j).val + 1) := by
  have hentry : tablePC2[j.val + 1 - 1] = (pc2Place j).val + 1 := (pc2Place_add_one j).symm
  rw [roundSubkey, subkeyOf, bitAt_permute _ _ _ (by omega) (by omega), hentry, keyHalvesAfter_eq_rotateLeft,
    bitAt_append_rotateLeft, selectedPlace]

/-- Settles O23: the selection is PC2 after the rotation, both injective and each within its half. -/
theorem subkeysSelectKeyBits : Obligations.SubkeysSelectKeyBits := by
  refine ⟨keyHalvesAfter_sixteen, fun n h1 hn => ⟨selectedPlace n, ?_, fun j => ?_, fun key j => ?_⟩⟩
  · exact (rotatedPlace_injective _).comp pc2Place_injective
  · rw [selectedPlace, rotatedPlace_lt_iff, pc2Place_lt_iff]
  · rw [subkeyReg_keySched key n h1 hn, bitAt_roundSubkey]

/-! ### Equal subkeys -/

/-- Both directions pass through the same halves, if all sixteen subkeys are equal (41_key_schedule.md R110). -/
theorem halvesAfter_dec_eq_enc {K : SubkeyFile}
    (h : ∀ m n, 1 ≤ m → m ≤ 16 → 1 ≤ n → n ≤ 16 → subkeyReg K m = subkeyReg K n) (b : Block) {n : Nat} (hn : n ≤ 16) :
    halvesAfter K .dec b n = halvesAfter K .enc b n := by
  induction n with
  | zero => rfl
  | succ n ih =>
    have hkey : subkeyReg K (ksel .dec (n + 1)) = subkeyReg K (ksel .enc (n + 1)) :=
      h (17 - (n + 1)) (n + 1) (by omega) (by omega) (by omega) hn
    rw [halvesAfter, halvesAfter, ih (by omega), hkey]

/-- With equal subkeys, encrypting and decrypting a block are one function (41_key_schedule.md R110). -/
theorem blockEnc_eq_blockDec {K : SubkeyFile}
    (h : ∀ m n, 1 ≤ m → m ≤ 16 → 1 ≤ n → n ≤ 16 → subkeyReg K m = subkeyReg K n) : blockEnc K = blockDec K := by
  funext b
  rw [blockEnc, blockDec, blockTransform, blockTransform, halvesAfter_dec_eq_enc h b le_rfl]

/-- Every subkey of the all-zero key is made from halves of zeros (41_key_schedule.md R106). -/
theorem subkeyReg_keySched_zero (n : Nat) (h1 : 1 ≤ n) (hn : n ≤ 16) :
    subkeyReg (keySched 0#64) n = subkeyOf 0#28 0#28 := by
  have hsplit : pc1Split 0#64 = (0#28, 0#28) := by decide
  rw [subkeyReg_keySched _ n h1 hn, roundSubkey, keyHalvesAfter_eq_rotateLeft, hsplit, rotateLeft_zeros]

/-- Settles O36: with equal subkeys the order of reading them does not show, and the all-zero key's are equal. -/
theorem equalSubkeysMakeBothDirectionsEqual : Obligations.EqualSubkeysMakeBothDirectionsEqual := by
  refine ⟨fun K h => blockEnc_eq_blockDec h, blockEnc_eq_blockDec fun m n hm hm' hn hn' => ?_⟩
  rw [subkeyReg_keySched_zero m hm hm', subkeyReg_keySched_zero n hn hn']

/-! ### Two instances of one key -/

/-- A CONSTRUCT that ends in `Ok` installed what its operands say (44_chaining_padding.md R161). -/
theorem installInstance_of_construct_ok {mode : Mode} {pad : Padding} {s t : State}
    (h : exec (.construct mode pad) s = .next t) (hok : t.status = .ok) :
    t = installInstance (keySched s.keyBlock) mode pad (ivAfterConstruct mode s) s := by
  rw [exec, execConstruct_eq] at h
  split_ifs at h <;> obtain rfl := Host.Outcome.next.inj h
  · simp at hok
  · simp at hok
  · rfl

/-- ENCRYPT and DECRYPT end the same way on the same inputs. -/
theorem exec_cipher_related {R : State → State → Prop} {s t : State} {i : Instr} (hi : i = .encrypt ∨ i = .decrypt)
    (h : SameCipherInputs s t) (hR : EndsRelated R s t) : SameOutcome R (exec i s) (exec i t) := by
  obtain rfl | rfl := hi
  · exact execEncrypt_related h hR
  · exact decryptWith_related unpadZero h hR

/-- `t` shows the host the result of `s`: the same `STATUS` and the same delivered bytes (10_state.md R28). -/
def SameResult (s t : State) : Prop := t.status = s.status ∧ t.outBytes = s.outBytes

/-- Each end of a command shows the same result, whatever states it starts from. -/
theorem endsRelated_sameResult (s t : State) : EndsRelated SameResult s t where
  raise e := ⟨rfl, by rw [raiseError_outBytes, raiseError_outBytes]⟩
  deliver bytes := ⟨rfl, by rw [deliver_outBytes, deliver_outBytes]⟩
  install K mode pad iv := ⟨rfl, rfl⟩

/-- Instances of the same subkeys, mode, padding and, in CBC, IV are the same inputs for the same message. -/
theorem sameCipherInputs_of_installInstance (K : SubkeyFile) (mode : Mode) (pad : Padding) {iv iv' : Block}
    (hiv : mode = .cbc → iv' = iv) (s s' : State) (msg : Buffer) :
    SameCipherInputs { installInstance K mode pad iv s with inBuf := msg }
      { installInstance K mode pad iv' s' with inBuf := msg } :=
  ⟨rfl, rfl, fun _ => rfl, fun _ => rfl, fun _ => hiv⟩

/-- Settles O19: the subkeys are a function of the key, and the instances are the same inputs of ENCRYPT and DECRYPT. -/
theorem sameKeySameCiphertext : Obligations.SameKeySameCiphertext := by
  intro mode pad s s' t t' msg ht ht' hok hok' hkey hiv
  obtain rfl := installInstance_of_construct_ok ht hok
  obtain rfl := installInstance_of_construct_ok ht' hok'
  rw [← hkey]
  refine ⟨rfl, fun i hi u hu => ?_⟩
  have hiv' : mode = .cbc → ivAfterConstruct mode s' = ivAfterConstruct mode s := by
    rintro rfl
    exact (hiv rfl).symm
  have hin := sameCipherInputs_of_installInstance (keySched s.keyBlock) mode pad hiv' s s' msg
  have hout := exec_cipher_related hi hin (endsRelated_sameResult _ _)
  rw [hu] at hout
  obtain ⟨u', hu', hstatus, hbytes⟩ := hout.next_left
  exact ⟨u', hu', hstatus, hbytes⟩

end Sys2Proof.Machine
end

section
/-! PROOFS. Scope: the round function, its four operations one by one and whole (42_round_function.md R121 to R127). -/

namespace Sys2Proof.Machine

/-! ### EXPAND -/

/-- Place `k` of group `j` of `E`, with position 0 read as 32 and 33 as 1 (42_round_function.md R121). -/
theorem tableE_group : ∀ j, 1 ≤ j → j ≤ 8 → ∀ k, k < 6 → tableE.toList.getD (6 * j - 5 + k - 1) 0 =
    if 4 * j - 4 + k = 0 then 32 else if 4 * j - 4 + k = 33 then 1 else 4 * j - 4 + k := by decide

/-- Settles O28: `E` is written group by group as the rule says. -/
theorem expandDuplicatesEdgeBits : Obligations.ExpandDuplicatesEdgeBits := by
  refine ⟨fun _ => rfl, fun r j k h1 hj hk => ?_⟩
  have hlt : 6 * j - 5 + k - 1 < 48 := by omega
  rw [expand, bitAt_permute tableE r _ (by omega) (by omega), ← toList_getD tableE hlt, tableE_group j h1 hj k hk]

/-! ### SBOX -/

/-- The entries of the boxes are 4-bit values (42_round_function.md R125). -/
theorem sboxTable_wf : ∀ j, sboxWf (sboxTable j) = true := by decide

/-- Looked up anywhere, a box gives a 4-bit value. -/
theorem sboxTable_getD_lt (j : Fin 8) (i : Nat) : (sboxTable j).toList.getD i 0 < 16 := by
  rw [List.getD_eq_getElem?_getD]
  cases hv : (sboxTable j).toList[i]? with
  | none => decide
  | some v => simpa using List.all_eq_true.mp (sboxTable_wf j) v (List.mem_of_getElem? hv)

/-- The column is the number `uint(g[2..5])` (42_round_function.md R123). -/
theorem sboxCol_eq_slice : ∀ g : BitVec 6, sboxCol g = (slice g 2 4).toNat := by decide

/-- The result of a box is its entry at the row and the column (42_round_function.md R123). -/
theorem sbox_toNat (j : Fin 8) (g : BitVec 6) :
    (sbox j g).toNat = (sboxTable j).toList.getD (16 * sboxRow g + sboxCol g) 0 := by
  rw [sbox, BitVec.toNat_ofNat, Nat.mod_eq_of_lt (sboxTable_getD_lt j _)]

/-- Each row of each box rearranges 0 to 15 (42_round_function.md R123). -/
theorem sboxTable_row_perm : ∀ (j : Fin 8) (r : Fin 4),
    (((sboxTable j).toList.drop (16 * r.val)).take 16).Perm (List.range 16) := by decide

/-- A box is its four rows one after the other (42_round_function.md R125). -/
theorem sboxTable_eq_rows : ∀ j : Fin 8, (sboxTable j).toList =
    (List.finRange 4).flatMap fun r => ((sboxTable j).toList.drop (16 * r.val)).take 16 := by decide

/-- A box holds each of 0 to 15 once for each of its four rows (42_round_function.md R123). -/
theorem sboxTable_perm (j : Fin 8) :
    (sboxTable j).toList.Perm ((List.finRange 4).flatMap fun _ => List.range 16) := by
  rw [sboxTable_eq_rows j]
  exact List.Perm.flatMap_left _ fun r _ => sboxTable_row_perm j r

/-- The 64 groups lead to the 64 entries of a box, each to its own (42_round_function.md R123). -/
theorem sboxIndex_perm : ((List.range 64).map fun n =>
    16 * sboxRow (BitVec.ofNat 6 n) + sboxCol (BitVec.ofNat 6 n)).Perm (List.range 64) := by decide

/-- The results of a box over all groups are its entries, in some order (42_round_function.md R123). -/
theorem sbox_results_perm (j : Fin 8) : ((List.range 64).map fun n => sbox j (BitVec.ofNat 6 n)).Perm
    ((sboxTable j).toList.map (BitVec.ofNat 4)) := by
  have hentries : (List.range 64).map (fun i => (sboxTable j).toList.getD i 0) = (sboxTable j).toList :=
    List.ext_getElem (by simp) fun i _ hi => by
      rw [List.getElem_map, List.getElem_range, List.getD_eq_getElem _ _ hi]
  have hperm := sboxIndex_perm.map fun i => BitVec.ofNat 4 ((sboxTable j).toList.getD i 0)
  rw [List.map_map] at hperm
  rw [← hentries, List.map_map]
  exact hperm

/-- Four times 0 to 15, as 4-bit sequences, is each of them four times (42_round_function.md R123). -/
theorem count_fourRanges : ∀ v : BitVec 4,
    (((List.finRange 4).flatMap fun _ => List.range 16).map (BitVec.ofNat 4)).count v = 4 := by decide

/-- Settles O29: the look-up is the rule's, and a box is four-to-one because each of its rows is one-to-one. -/
theorem sboxLooksUpRowAndColumn : Obligations.SboxLooksUpRowAndColumn := by
  refine fun j => ⟨fun g => ?_, fun r v => ?_, fun v => ?_⟩
  · rw [sbox_toNat, sboxCol_eq_slice, sboxRow]
  · rw [(sboxTable_row_perm j r).count_eq]
    exact List.count_eq_one_of_mem List.nodup_range (List.mem_range.mpr v.isLt)
  · rw [(sbox_results_perm j).count_eq, ((sboxTable_perm j).map _).count_eq]
    exact count_fourRanges v

/-! ### SUBST -/

/-- A slice within the left part of a concatenation (00_scope.md R10). -/
theorem slice_append_of_le {v w : Nat} (s : BitVec v) (t : BitVec w) (a n : Nat) (ha : 1 ≤ a) (hn : a + n ≤ v + 1) :
    slice (s ++ t) a n = slice s a n := by
  refine eq_of_bitAt fun p h1 hp => ?_
  rw [bitAt_slice _ a n p ha (by omega) h1 hp, bitAt_slice s a n p ha hn h1 hp, bitAt_append _ _ _ (by omega),
    if_pos (by omega)]

/-- The slice of a whole sequence (00_scope.md R10). -/
theorem slice_self {w : Nat} (s : BitVec w) : slice s 1 w = s := by
  refine eq_of_bitAt fun p h1 hp => ?_
  rw [bitAt_slice s 1 w p le_rfl (by omega) h1 hp, Nat.add_sub_cancel_left]

/-- The slice that is the right part of a concatenation (00_scope.md R10). -/
theorem slice_append_right {v w : Nat} (s : BitVec v) (t : BitVec w) : slice (s ++ t) (v + 1) w = t := by
  refine eq_of_bitAt fun p h1 hp => ?_
  have hpos : v + 1 + p - 1 - v = p := by omega
  rw [bitAt_slice _ (v + 1) w p (by omega) (by omega) h1 hp, bitAt_append _ _ _ (by omega), if_neg (by omega), hpos]

/-- Settles O30: each group of four ends the concatenation up to it. -/
theorem substWorksGroupwise : Obligations.SubstWorksGroupwise := by
  intro y j
  unfold subst
  match j with
  | 0 =>
    simp (disch := decide) only [slice_append_of_le]
    exact slice_self _
  | 1 | 2 | 3 | 4 | 5 | 6 =>
    simp (disch := decide) only [slice_append_of_le]
    exact slice_append_right _ _
  | 7 => exact slice_append_right _ _

/-! ### KEYMIX, PPERM and F whole -/

/-- Position `p` of the complement (00_scope.md R10). -/
theorem bitAt_not {w : Nat} (s : BitVec w) (p : Nat) (h1 : 1 ≤ p) (hp : p ≤ w) : bitAt (~~~s) p = !bitAt s p := by
  have hlt : p - 1 < w := by omega
  simp [bitAt, hlt]

/-- A permutation of positions moves the complement as it moves the sequence (40_permutation_engine.md R80). -/
theorem permute_not {m w : Nat} {T : Vector Nat m} (hT : permTableWf w T = true) (s : BitVec w) :
    permute T (~~~s) = ~~~permute T s := by
  refine eq_of_bitAt fun p h1 hp => ?_
  obtain ⟨hlo, hhi⟩ := entry_bounds_of_permTableWf hT (i := p - 1) (by omega)
  rw [bitAt_permute T _ p h1 hp, bitAt_not s _ hlo hhi, bitAt_not _ p h1 hp, bitAt_permute T s p h1 hp]

/-- `EXPAND(not r) = not EXPAND(r)` (42_round_function.md R127). -/
theorem expand_not (r : Half) : expand (~~~r) = ~~~expand r := permute_not (by decide) r

/-- Two complements mix to what the sequences mix to (42_round_function.md R122). -/
theorem not_xor_not {w : Nat} (x y : BitVec w) : ~~~x ^^^ ~~~y = x ^^^ y := by
  rw [← BitVec.not_xor_left, ← BitVec.not_xor_right, BitVec.not_not]

/-- F is a function of `EXPAND(r) xor k` (42_round_function.md R127). -/
theorem roundF_eq (r : Half) (k : Subkey) : roundF r k = permute tableP (subst (expand r ^^^ k)) := rfl

/-- Two halves that no S-box tells apart under the zero subkey (42_round_function.md R127). -/
theorem roundF_collision : roundF 0xC7EABA52#32 0#48 = roundF 0xDE8ABA52#32 0#48 := by decide +kernel

/-- Settles O31: F looks at the mix alone, and complementing both operands leaves the mix as it was. -/
theorem roundFunctionSeesOnlyTheMix : Obligations.RoundFunctionSeesOnlyTheMix := by
  refine ⟨fun _ _ => rfl, fun _ => rfl, fun r k => ⟨rfl, roundF_eq r k⟩, fun r r' k k' hmix => ?_,
    fun r k => ?_, ⟨0xC7EABA52#32, 0xDE8ABA52#32, 0#48, by decide, roundF_collision⟩⟩
  · rw [roundF_eq, hmix, roundF_eq]
  · rw [roundF_eq, roundF_eq, expand_not, not_xor_not]

end Sys2Proof.Machine
end

section
/-! PROOFS. Scope: the block transform, its round, its two directions and how one undoes the other
(43_block_transform.md R141 to R147). -/

namespace Sys2Proof.Machine

/-! ### ROUND -/

/-- A round applied to the exchanged result of a round of the same subkey gives the old halves back, exchanged
(43_block_transform.md R142). -/
theorem feistelRound_swap_feistelRound (lr : Half × Half) (k : Subkey) :
    feistelRound (feistelRound lr k).swap k = lr.swap := by
  have hcancel : lr.1 ^^^ roundF lr.2 k ^^^ roundF lr.2 k = lr.1 := by
    rw [BitVec.xor_assoc, BitVec.xor_self, BitVec.xor_zero]
  exact Prod.ext rfl hcancel

/-- For every subkey the round is a bijection, undone by the round between two exchanges
(43_block_transform.md R142). -/
theorem feistelRound_bijective (k : Subkey) : Function.Bijective (fun lr : Half × Half => feistelRound lr k) := by
  have hundo : ∀ lr : Half × Half, (feistelRound (feistelRound lr k).swap k).swap = lr := fun lr => by
    rw [feistelRound_swap_feistelRound, Prod.swap_swap]
  exact Function.bijective_iff_has_inverse.mpr
    ⟨fun lr => (feistelRound lr.swap k).swap, hundo, fun lr => feistelRound_swap_feistelRound lr.swap k⟩

/-- Settles O32: the old left half is what a second round makes of the exchanged result. -/
theorem feistelRoundIsABijection : Obligations.FeistelRoundIsABijection := fun k =>
  ⟨fun _ _ => rfl, feistelRound_bijective k,
    fun lr => ⟨rfl, (congrArg Prod.snd (feistelRound_swap_feistelRound lr k)).symm⟩⟩

/-! ### IPERM, PREOUT and FPERM -/

/-- `IP` undoes `FP` on every sequence (40_permutation_engine.md R89). -/
theorem permute_tableIP_permute_tableFP (s : Block) : permute tableIP (permute tableFP s) = s :=
  permute_permute_of_inverse (by decide) tableFP_tableIP s

/-- The halves of IPERM together are IP of the block (43_block_transform.md R141). -/
theorem iPerm_append (b : Block) : (iPerm b).1 ++ (iPerm b).2 = permute tableIP b :=
  slice_append_slice (v := 32) (w := 32) (permute tableIP b)

/-- IPERM takes back PREOUT and FPERM, but for the exchange that PREOUT makes (43_block_transform.md R141, R143,
R144). -/
theorem iPerm_fPerm_preOut (lr : Half × Half) : iPerm (fPerm (preOut lr)) = lr.swap := by
  have hleft : slice (lr.2 ++ lr.1) 1 32 = lr.2 := by
    rw [slice_append_of_le _ _ 1 32 le_rfl le_rfl, slice_self]
  have hright : slice (lr.2 ++ lr.1) 33 32 = lr.1 := slice_append_right lr.2 lr.1
  simp only [iPerm, fPerm, preOut, permute_tableIP_permute_tableFP]
  exact Prod.ext hleft hright

/-- PREOUT and FPERM take back IPERM, once its halves are exchanged (43_block_transform.md R141, R143, R144). -/
theorem fPerm_preOut_swap_iPerm (b : Block) : fPerm (preOut (iPerm b).swap) = b := by
  have hwhole : preOut (iPerm b).swap = permute tableIP b := iPerm_append b
  rw [hwhole, fPerm, permute_tableFP_permute_tableIP]

/-! ### The transform, whole -/

/-- The transform ends with FP of `R_16 ‖ L_16` (43_block_transform.md R143 to R146). -/
theorem blockTransform_eq (K : SubkeyFile) (dir : Dir) (b : Block) :
    blockTransform K dir b = fPerm (preOut (halvesAfter K dir b 16)) := by rw [blockTransform]

/-- Settles O33: the recursion of the halves is the rule's, in both directions. -/
theorem blockTransformFollowsItsRule : Obligations.BlockTransformFollowsItsRule := by
  refine fun K dir b => ⟨iPerm_append b, fun n h1 _ => ?_, blockTransform_eq K dir b, rfl, rfl⟩
  obtain ⟨m, rfl⟩ : ∃ m, n = m + 1 := ⟨n - 1, (Nat.sub_add_cancel h1).symm⟩
  rfl

/-! ### One direction after the other -/

/-- The direction that undoes a direction (43_block_transform.md R147). -/
def oppositeDir : Dir → Dir
  | .enc => .dec
  | .dec => .enc

/-- The opposite direction reads the subkeys from the other end (41_key_schedule.md R108). -/
theorem ksel_oppositeDir (dir : Dir) {n : Nat} (hn : n ≤ 16) : ksel (oppositeDir dir) n = ksel dir (17 - n) := by
  cases dir with
  | enc => rfl
  | dec =>
    have hback : 17 - (17 - n) = n := Nat.sub_sub_self (by omega)
    exact hback.symm

/-- The opposite direction, run on a result, passes through the halves that made it, exchanged and in reverse
(43_block_transform.md R147). -/
theorem halvesAfter_oppositeDir (K : SubkeyFile) (dir : Dir) (b : Block) {n : Nat} (hn : n ≤ 16) :
    halvesAfter K (oppositeDir dir) (blockTransform K dir b) n = (halvesAfter K dir b (16 - n)).swap := by
  induction n with
  | zero => rw [halvesAfter, blockTransform_eq, iPerm_fPerm_preOut]
  | succ n ih =>
    have hback : 16 - n = 16 - (n + 1) + 1 := by omega
    have hkey : ksel (oppositeDir dir) (n + 1) = ksel dir (16 - (n + 1) + 1) := by
      rw [ksel_oppositeDir dir hn, ← hback]
      exact congrArg (ksel dir) (Nat.add_sub_add_right 16 1 n)
    rw [halvesAfter, ih (by omega), hback, halvesAfter, hkey, feistelRound_swap_feistelRound]

/-- The opposite direction gives the block back (43_block_transform.md R147). -/
theorem blockTransform_oppositeDir (K : SubkeyFile) (dir : Dir) (b : Block) :
    blockTransform K (oppositeDir dir) (blockTransform K dir b) = b := by
  rw [blockTransform_eq K (oppositeDir dir), halvesAfter_oppositeDir K dir b le_rfl, Nat.sub_self, halvesAfter,
    fPerm_preOut_swap_iPerm]

/-- Decrypting undoes encrypting, for every subkey file (43_block_transform.md R147). -/
theorem blockDec_blockEnc (K : SubkeyFile) (b : Block) : blockDec K (blockEnc K b) = b :=
  blockTransform_oppositeDir K .enc b

/-- Encrypting undoes decrypting, for every subkey file (43_block_transform.md R147). -/
theorem blockEnc_blockDec (K : SubkeyFile) (b : Block) : blockEnc K (blockDec K b) = b :=
  blockTransform_oppositeDir K .dec b

/-- Settles O34: each transform is the other's inverse. -/
theorem blockRoundTrip : Obligations.BlockRoundTrip := fun K =>
  ⟨fun b => ⟨blockDec_blockEnc K b, blockEnc_blockDec K b⟩,
    Function.bijective_iff_has_inverse.mpr ⟨blockDec K, blockDec_blockEnc K, blockEnc_blockDec K⟩,
    Function.bijective_iff_has_inverse.mpr ⟨blockEnc K, blockEnc_blockDec K, blockDec_blockEnc K⟩⟩

/-- Settles O35: every round of decryption undoes the round of encryption whose subkey it reads. -/
theorem decryptionRetracesEncryption : Obligations.DecryptionRetracesEncryption :=
  fun K b _ hn => halvesAfter_oppositeDir K .enc b hn

end Sys2Proof.Machine
end

section
/-! PROOFS. Scope: padding and unpadding (44_chaining_padding.md R162, R169 to R171, R178). -/

namespace Sys2Proof.Machine

/-! ### PAD -/

/-- The pad length is a byte's value from 1 to 8 (44_chaining_padding.md R162). -/
theorem padLength_bounds (len : Nat) : 1 ≤ padLength len ∧ padLength len ≤ 8 := by
  unfold padLength
  omega

/-- A padded message is whole blocks (44_chaining_padding.md R162). -/
theorem padMessage_length_mod (m : List Byte) : (padMessage m).length % 8 = 0 := by
  rw [padMessage_length]
  omega

/-- Settles O39: the pad length completes the last block, or makes one more where there is none to complete. -/
theorem padFillsTheLastBlock : Obligations.PadFillsTheLastBlock := by
  intro m
  have hlen := padMessage_length m
  obtain ⟨hpos, hle⟩ := padLength_bounds m.length
  refine ⟨padLength m.length, rfl, hpos, hle, fun h => ?_, rfl, padMessage_length_mod m, by omega, by omega⟩
  rw [padLength, h]

/-! ### UNPAD, by the last byte -/

/-- A last byte of 1 up to the length strips that many bytes (44_chaining_padding.md R169). -/
theorem unpadMessage_concat_of_le (z : Config.UnpadZero) {init : List Byte} {n : Byte} (h1 : 1 ≤ n.toNat)
    (hn : n.toNat ≤ init.length + 1) :
    unpadMessage z (init ++ [n]) = some (init.take (init.length + 1 - n.toNat)) := by
  have h0 : n.toNat ≠ 0 := Nat.one_le_iff_ne_zero.mp h1
  have htake : init.length + 1 - n.toNat ≤ init.length := by omega
  simp [unpadMessage, h0, hn, List.take_append_of_le_length htake]

/-- A last byte of 0 strips nothing where `UNPAD_ZERO = keep` (44_chaining_padding.md R170). -/
theorem unpadMessage_keep_concat_zero (init : List Byte) {n : Byte} (h0 : n.toNat = 0) :
    unpadMessage .keep (init ++ [n]) = some (init ++ [n]) := by
  simp [unpadMessage, h0]

/-- A last byte of 0 strips everything where `UNPAD_ZERO = empty` (44_chaining_padding.md R170). -/
theorem unpadMessage_empty_concat_zero (init : List Byte) {n : Byte} (h0 : n.toNat = 0) :
    unpadMessage .empty (init ++ [n]) = some [] := by
  simp [unpadMessage, h0]

/-- A last byte above the length strips everything (44_chaining_padding.md R171). -/
theorem unpadMessage_concat_of_gt (z : Config.UnpadZero) {init : List Byte} {n : Byte}
    (hn : init.length + 1 < n.toNat) : unpadMessage z (init ++ [n]) = some [] := by
  have h0 : n.toNat ≠ 0 := by omega
  simp [unpadMessage, h0, hn]

/-- Settles O40: the three ranges of the last byte. -/
theorem unpadTrustsTheLastByte : Obligations.UnpadTrustsTheLastByte :=
  fun z init _ => ⟨unpadMessage_concat_of_le z,
    fun h0 => ⟨unpadMessage_keep_concat_zero init h0, unpadMessage_empty_concat_zero init h0⟩,
    unpadMessage_concat_of_gt z⟩

/-- With `UNPAD_ZERO = keep`, unpadding strips the last byte's number of bytes, or all there are
(44_chaining_padding.md R174). -/
theorem unpadMessage_keep_length {m r : List Byte} (h : unpadMessage .keep m = some r) :
    ∃ n : Byte, m.getLast? = some n ∧ r.length = m.length - min n.toNat m.length := by
  obtain rfl | ⟨init, n, rfl⟩ := List.eq_nil_or_concat' m
  · cases h
  · refine ⟨n, List.getLast?_concat, ?_⟩
    rw [List.length_append, List.length_singleton]
    obtain h0 | h1 := Nat.eq_zero_or_pos n.toNat
    · rw [unpadMessage_keep_concat_zero init h0] at h
      cases h
      simp [h0]
    · obtain hn | hn := le_or_gt n.toNat (init.length + 1)
      · rw [unpadMessage_concat_of_le .keep h1 hn] at h
        cases h
        rw [List.length_take]
        omega
      · rw [unpadMessage_concat_of_gt .keep hn] at h
        cases h
        rw [List.length_nil]
        omega

/-! ### UNPAD after PAD -/

/-- The last byte of a padded message is the pad length (44_chaining_padding.md R162). -/
theorem padMessage_eq_concat (m : List Byte) : padMessage m =
    (m ++ List.replicate (padLength m.length - 1) (BitVec.ofNat 8 (padLength m.length))) ++
      [BitVec.ofNat 8 (padLength m.length)] := by
  rw [List.append_assoc, ← List.replicate_succ', Nat.sub_add_cancel (padLength_bounds m.length).1]
  rfl

/-- Unpadding a padded message gives it back (44_chaining_padding.md R178). -/
theorem unpadMessage_padMessage (z : Config.UnpadZero) (m : List Byte) : unpadMessage z (padMessage m) = some m := by
  obtain ⟨hpos, hle⟩ := padLength_bounds m.length
  have hbyte : (BitVec.ofNat 8 (padLength m.length)).toNat = padLength m.length :=
    Nat.mod_eq_of_lt (by omega)
  have hinit : (m ++ List.replicate (padLength m.length - 1) (BitVec.ofNat 8 (padLength m.length))).length + 1 =
      m.length + padLength m.length := by
    rw [List.length_append, List.length_replicate]
    omega
  rw [padMessage_eq_concat, unpadMessage_concat_of_le z (by omega) (by omega), hinit, hbyte, Nat.add_sub_cancel,
    List.take_left]

/-- Settles O41: the last pad byte says how many bytes PAD appended. -/
theorem unpadUndoesPad : Obligations.UnpadUndoesPad := unpadMessage_padMessage

end Sys2Proof.Machine
end

section
/-! PROOFS. Scope: the two chaining modes block by block, and how one direction undoes the other
(44_chaining_padding.md R164, R165, R167, R168, R175 to R178). -/

namespace Sys2Proof.Machine

/-! ### The blocks of the four results -/

/-- The blocks of `ECB_ENC(m)` (44_chaining_padding.md R164). -/
@[simp] theorem blocksOf_ecbEnc (K : SubkeyFile) (m : List Byte) :
    blocksOf (ecbEnc K m) = (blocksOf m).map (blockEnc K) := blocksOf_bytesOf _

/-- The blocks of `ECB_DEC(c)` (44_chaining_padding.md R167). -/
@[simp] theorem blocksOf_ecbDec (K : SubkeyFile) (c : List Byte) :
    blocksOf (ecbDec K c) = (blocksOf c).map (blockDec K) := blocksOf_bytesOf _

/-- The blocks of `CBC_ENC(m)` (44_chaining_padding.md R165). -/
@[simp] theorem blocksOf_cbcEnc (K : SubkeyFile) (iv : Block) (m : List Byte) :
    blocksOf (cbcEnc K iv m) = cbcEncBlocks K iv (blocksOf m) := blocksOf_bytesOf _

/-- The blocks of `CBC_DEC(c)` (44_chaining_padding.md R168). -/
@[simp] theorem blocksOf_cbcDec (K : SubkeyFile) (iv : Block) (c : List Byte) :
    blocksOf (cbcDec K iv c) = cbcDecBlocks K iv (blocksOf c) := blocksOf_bytesOf _

/-- Block `i` of ECB is the transform of block `i` (44_chaining_padding.md R164, R167). -/
theorem map_blocks_getD (f : Block → Block) {bs : List Block} {i : Nat} (hi : i < bs.length) :
    (bs.map f).getD i 0 = f (bs.getD i 0) := by
  simp [hi]

/-- Block `i` of CBC encryption; the chaining value is the IV or the result's block before it
(44_chaining_padding.md R165). -/
theorem cbcEncBlocks_getD (K : SubkeyFile) (cv : Block) {ms : List Block} {i : Nat} (hi : i < ms.length) :
    (cbcEncBlocks K cv ms).getD i 0 = blockEnc K (ms.getD i 0 ^^^ (cv :: cbcEncBlocks K cv ms).getD i 0) := by
  induction ms generalizing cv i with
  | nil => cases hi
  | cons m ms ih =>
    cases i with
    | zero => rfl
    | succ i => exact ih _ (Nat.lt_of_succ_lt_succ hi)

/-- Block `i` of CBC decryption; the chaining value is the IV or the operand's block before it
(44_chaining_padding.md R168). -/
theorem cbcDecBlocks_getD (K : SubkeyFile) (cv : Block) {cs : List Block} {i : Nat} (hi : i < cs.length) :
    (cbcDecBlocks K cv cs).getD i 0 = blockDec K (cs.getD i 0) ^^^ (cv :: cs).getD i 0 := by
  induction cs generalizing cv i with
  | nil => cases hi
  | cons c cs ih =>
    cases i with
    | zero => rfl
    | succ i => exact ih _ (Nat.lt_of_succ_lt_succ hi)

/-- Settles O42: block `i` of the result by induction over the blocks. -/
theorem cbcEncryptChainsCiphertext : Obligations.CbcEncryptChainsCiphertext := by
  refine fun K iv m hm => ⟨chainEnc_length .cbc K iv m hm, fun i hi => ?_⟩
  rw [← blocksOf_length m hm] at hi
  rw [blocksOf_cbcEnc]
  exact cbcEncBlocks_getD K iv hi

/-- Settles O43: block `i` of the result by induction over the blocks. -/
theorem cbcDecryptChainsCiphertext : Obligations.CbcDecryptChainsCiphertext := by
  refine fun K iv c hc => ⟨chainDec_length .cbc K iv c hc, fun i hi => ?_⟩
  rw [← blocksOf_length c hc] at hi
  rw [blocksOf_cbcDec]
  exact cbcDecBlocks_getD K iv hi

/-- Settles O44: ECB maps the transform over the blocks; lengths do not depend on the IV. -/
theorem ecbBlocksAreIndependent : Obligations.EcbBlocksAreIndependent := by
  intro K m hm
  simp only [blocksOf_ecbEnc, blocksOf_ecbDec, ← blocksOf_length m hm]
  refine ⟨chainEnc_length .ecb K 0 m hm, chainDec_length .ecb K 0 m hm,
    fun i hi => ⟨map_blocks_getD _ hi, map_blocks_getD _ hi⟩, fun i j hi hj heq => ?_⟩
  rw [map_blocks_getD _ hi, map_blocks_getD _ hj, heq]

/-! ### One direction after the other -/

/-- CBC decryption of CBC encryption, from the same chaining value (44_chaining_padding.md R178). -/
theorem cbcDecBlocks_cbcEncBlocks (K : SubkeyFile) (cv : Block) (ms : List Block) :
    cbcDecBlocks K cv (cbcEncBlocks K cv ms) = ms := by
  induction ms generalizing cv with
  | nil => rfl
  | cons m ms ih => rw [cbcEncBlocks, cbcDecBlocks, blockDec_blockEnc, xor_cancel_right, ih]

/-- CBC encryption of CBC decryption, from the same chaining value (44_chaining_padding.md R178). -/
theorem cbcEncBlocks_cbcDecBlocks (K : SubkeyFile) (cv : Block) (cs : List Block) :
    cbcEncBlocks K cv (cbcDecBlocks K cv cs) = cs := by
  induction cs generalizing cv with
  | nil => rfl
  | cons c cs ih => rw [cbcDecBlocks, cbcEncBlocks, xor_cancel_right, blockEnc_blockDec, ih]

/-- Decrypting whole encrypted blocks gives them back, in both modes (44_chaining_padding.md R178). -/
theorem chainDec_chainEnc (mode : Mode) (K : SubkeyFile) (iv : Block) {m : List Byte} (hm : m.length % 8 = 0) :
    chainDec mode K iv (chainEnc mode K iv m) = m := by
  cases mode with
  | ecb =>
    have hid : blockDec K ∘ blockEnc K = id := funext (blockDec_blockEnc K)
    rw [chainDec, chainEnc, ecbDec, blocksOf_ecbEnc, List.map_map, hid, List.map_id, bytesOf_blocksOf m hm]
  | cbc => rw [chainDec, chainEnc, cbcDec, blocksOf_cbcEnc, cbcDecBlocks_cbcEncBlocks, bytesOf_blocksOf m hm]

/-- Encrypting whole decrypted blocks gives them back, in both modes (44_chaining_padding.md R178). -/
theorem chainEnc_chainDec (mode : Mode) (K : SubkeyFile) (iv : Block) {c : List Byte} (hc : c.length % 8 = 0) :
    chainEnc mode K iv (chainDec mode K iv c) = c := by
  cases mode with
  | ecb =>
    have hid : blockEnc K ∘ blockDec K = id := funext (blockEnc_blockDec K)
    rw [chainDec, chainEnc, ecbEnc, blocksOf_ecbDec, List.map_map, hid, List.map_id, bytesOf_blocksOf c hc]
  | cbc => rw [chainDec, chainEnc, cbcEnc, blocksOf_cbcDec, cbcEncBlocks_cbcDecBlocks, bytesOf_blocksOf c hc]

/-- Eight bytes are one block (44_chaining_padding.md R160). -/
theorem blocksOf_of_length_eq : {m : List Byte} → m.length = 8 → blocksOf m = [toBlock m]
  | [_, _, _, _, _, _, _, _], _ => rfl

/-- `ECB_ENC` of eight bytes is the transform of their block (44_chaining_padding.md R164). -/
theorem ecbEnc_of_length_eq (K : SubkeyFile) {m : List Byte} (hm : m.length = 8) :
    ecbEnc K m = blockBytes (blockEnc K (toBlock m)) := by
  rw [ecbEnc, blocksOf_of_length_eq hm]
  exact List.append_nil _

/-- Settles O46: each key's core transforms the one block, and each decryption takes back the encryption last made. -/
theorem doubleEncryptionComposes : Obligations.DoubleEncryptionComposes := by
  intro K1 K2 m hm
  have hwhole : m.length % 8 = 0 := by rw [hm]
  have hundo (K : SubkeyFile) {c : List Byte} (hc : c.length % 8 = 0) : ecbDec K (ecbEnc K c) = c :=
    chainDec_chainEnc .ecb K 0 hc
  have honce : (ecbEnc K1 m).length % 8 = 0 := by rw [ecbEnc, bytesOf_length, Nat.mul_mod_right]
  refine ⟨?_, by rw [hundo K2 honce, hundo K1 hwhole]⟩
  rw [ecbEnc_of_length_eq K1 hm, ecbEnc_of_length_eq K2 (blockBytes_length _), toBlock_blockBytes]

/-! ### A changed ciphertext block -/

/-- `bs'` is `bs` with block `i` changed by the difference `δ` (44_chaining_padding.md R176). -/
structure ChangedAt (i : Nat) (δ : Block) (bs bs' : List Block) : Prop where
  length : bs'.length = bs.length
  lt : i < bs.length
  changed : bs'.getD i 0 = bs.getD i 0 ^^^ δ
  others : ∀ j, j ≠ i → bs'.getD j 0 = bs.getD j 0

/-- Lists of one length agree at every place, if they do at the places they have. -/
theorem getD_eq_of_length_eq {bs bs' : List Block} (hlen : bs'.length = bs.length) {j : Nat}
    (h : j < bs.length → bs'.getD j 0 = bs.getD j 0) : bs'.getD j 0 = bs.getD j 0 := by
  obtain hj | hj := lt_or_ge j bs.length
  · exact h hj
  · rw [List.getD_eq_default _ _ hj, List.getD_eq_default _ _ (hlen ▸ hj)]

/-- Block decryption keeps blocks apart (43_block_transform.md R147). -/
theorem blockDec_injective (K : SubkeyFile) : Function.Injective (blockDec K) :=
  Function.LeftInverse.injective (blockEnc_blockDec K)

section
variable {i : Nat} {δ : Block} {bs bs' : List Block}

/-- The changed block decrypts to another block. -/
theorem ChangedAt.blockDec_ne (h : ChangedAt i δ bs bs') (hδ : δ ≠ 0) (K : SubkeyFile) :
    blockDec K (bs'.getD i 0) ≠ blockDec K (bs.getD i 0) := by
  refine (blockDec_injective K).ne ?_
  rw [h.changed]
  exact mt xor_left_eq_self_iff.mp hδ

/-- ECB: no other plaintext block changes (44_chaining_padding.md R176). -/
theorem ChangedAt.ecb_others (h : ChangedAt i δ bs bs') (K : SubkeyFile) {j : Nat} (hj : j ≠ i) :
    (bs'.map (blockDec K)).getD j 0 = (bs.map (blockDec K)).getD j 0 := by
  refine getD_eq_of_length_eq (by rw [List.length_map, List.length_map, h.length]) fun hlt => ?_
  rw [List.length_map] at hlt
  rw [map_blocks_getD _ hlt, map_blocks_getD _ (h.length ▸ hlt), h.others j hj]

/-- ECB: the plaintext block is the decryption of the changed block (44_chaining_padding.md R176). -/
theorem ChangedAt.ecb_changed (h : ChangedAt i δ bs bs') (K : SubkeyFile) :
    (bs'.map (blockDec K)).getD i 0 = blockDec K (bs'.getD i 0) :=
  map_blocks_getD _ (h.length ▸ h.lt)

/-- The chaining value of every block but the one after the changed one is as before. -/
theorem ChangedAt.chainingValue_eq (h : ChangedAt i δ bs bs') (iv : Block) {j : Nat} (hj : j ≠ i + 1) :
    (iv :: bs').getD j 0 = (iv :: bs).getD j 0 := by
  cases j with
  | zero => rfl
  | succ j => exact h.others j (by omega)

/-- CBC: no plaintext block changes but the changed one and the next (44_chaining_padding.md R176). -/
theorem ChangedAt.cbc_others (h : ChangedAt i δ bs bs') (K : SubkeyFile) (iv : Block) {j : Nat} (hj : j ≠ i)
    (hnext : j ≠ i + 1) : (cbcDecBlocks K iv bs').getD j 0 = (cbcDecBlocks K iv bs).getD j 0 := by
  refine getD_eq_of_length_eq (by rw [cbcDecBlocks_length, cbcDecBlocks_length, h.length]) fun hlt => ?_
  rw [cbcDecBlocks_length] at hlt
  rw [cbcDecBlocks_getD K iv hlt, cbcDecBlocks_getD K iv (h.length ▸ hlt), h.others j hj, h.chainingValue_eq iv hnext]

/-- CBC: the next plaintext block changes by the same difference, through its chaining value
(44_chaining_padding.md R176). -/
theorem ChangedAt.cbc_next (h : ChangedAt i δ bs bs') (K : SubkeyFile) (iv : Block) (hlt : i + 1 < bs.length) :
    (cbcDecBlocks K iv bs').getD (i + 1) 0 = (cbcDecBlocks K iv bs).getD (i + 1) 0 ^^^ δ := by
  rw [cbcDecBlocks_getD K iv hlt, cbcDecBlocks_getD K iv (h.length ▸ hlt), h.others _ (Nat.succ_ne_self i),
    List.getD_cons_succ, List.getD_cons_succ, h.changed, BitVec.xor_assoc]

/-- CBC: the plaintext block is the decryption of the changed block xor the old chaining value
(44_chaining_padding.md R176). -/
theorem ChangedAt.cbc_changed (h : ChangedAt i δ bs bs') (K : SubkeyFile) (iv : Block) :
    (cbcDecBlocks K iv bs').getD i 0 = blockDec K (bs'.getD i 0) ^^^ (iv :: bs).getD i 0 := by
  rw [cbcDecBlocks_getD K iv (h.length ▸ h.lt), h.chainingValue_eq iv (Nat.succ_ne_self i).symm]

end

/-- Settles O45: ECB decrypts block `i` from block `i`, CBC from blocks `i - 1` and `i`. -/
theorem ciphertextErrorsPropagateExactly : Obligations.CiphertextErrorsPropagateExactly := by
  intro K iv δ c c' i hc hlen hi hδ hat hothers
  have hN := blocksOf_length c hc
  rw [← hN] at hi
  have h : ChangedAt i δ (blocksOf c) (blocksOf c') :=
    ⟨by rw [hN, blocksOf_length c' (hlen ▸ hc), hlen], hi, hat, hothers⟩
  simp only [blocksOf_ecbDec, blocksOf_cbcDec, ← hN]
  refine ⟨fun j hj => h.ecb_others K hj, h.ecb_changed K, ?_, fun j hj hnext => h.cbc_others K iv hj hnext,
    h.cbc_next K iv, h.cbc_changed K iv, ?_⟩
  · rw [h.ecb_changed, map_blocks_getD _ hi]
    exact h.blockDec_ne hδ K
  · rw [h.cbc_changed, cbcDecBlocks_getD K iv hi]
    exact mt (BitVec.xor_left_inj _).mp (h.blockDec_ne hδ K)

end Sys2Proof.Machine
end

section
/-! PROOFS. Scope: the three commands whole, the lengths of their results, and what one call leaves for the next
(44_chaining_padding.md R161, R163, R166, R172 to R174, R178, 43_block_transform.md R148, R149). -/

namespace Sys2Proof.Machine

/-! ### The rules of the commands -/

/-- Settles O17: the two tests in order, and the effect where both pass. -/
theorem constructFollowsItsRule : Obligations.ConstructFollowsItsRule := by
  refine fun mode pad s => ⟨fun hk => ⟨_, execConstruct_badKey mode pad hk, raiseError_raised s _⟩,
    fun hk hmode hi => ?_, fun hk hi => ?_⟩
  · subst hmode
    exact ⟨_, execConstruct_badIv pad hk hi, raiseError_raised s _⟩
  · refine ⟨_, execConstruct_ok mode pad hk hi, installInstance_constructed s s.keyBlock mode pad _, ?_⟩
    rintro rfl
    rfl

/-- Without padding the message is chained as it is (44_chaining_padding.md R163). -/
@[simp] theorem padFor_none (m : List Byte) : padFor .none m = m := rfl

/-- Under PKCS5 the message is chained padded (44_chaining_padding.md R163). -/
@[simp] theorem padFor_pkcs5 (m : List Byte) : padFor .pkcs5 m = padMessage m := rfl

/-- Without padding all the chained data is delivered (44_chaining_padding.md R166). -/
@[simp] theorem unpadFor_none (z : Config.UnpadZero) (m : List Byte) : unpadFor z .none m = some m := rfl

/-- Under PKCS5 the chained data is delivered unpadded (44_chaining_padding.md R166). -/
@[simp] theorem unpadFor_pkcs5 (z : Config.UnpadZero) (m : List Byte) : unpadFor z .pkcs5 m = unpadMessage z m := rfl

/-- Settles O47: the two tests in order, and the effect where both pass, which under PKCS5 the second always does. -/
theorem encryptFollowsItsRule : Obligations.EncryptFollowsItsRule := by
  refine fun s => ⟨fun hv => ⟨_, execEncrypt_notConstructed hv, raiseError_raised s _⟩, fun hv hp hl => ?_,
    fun hv hp hl => ?_, fun hv hp => ?_⟩
  · exact ⟨_, execEncrypt_badLength hv (by rwa [hp, padFor_none, message_length]), raiseError_raised s _⟩
  · have hnext := execEncrypt_ok hv (by rwa [hp, padFor_none, message_length])
    rw [hp, padFor_none] at hnext
    exact ⟨_, hnext, deliver_delivered _ s⟩
  · have hnext := execEncrypt_ok hv (by rw [hp, padFor_pkcs5, padMessage_length_mod])
    rw [hp, padFor_pkcs5] at hnext
    exact ⟨_, hnext, deliver_delivered _ s⟩

/-- Settles O48: the two tests in order, the effect where both pass, and the one case with nothing to unpad. -/
theorem decryptFollowsItsRule : Obligations.DecryptFollowsItsRule := by
  refine fun s => ⟨fun hv => ⟨_, decryptWith_notConstructed unpadZero hv, raiseError_raised s _⟩,
    fun hv hl => ⟨_, decryptWith_badLength unpadZero hv hl, raiseError_raised s _⟩, fun hv hp hl => ?_,
    fun hv hp hl hpos => ?_, fun hv hp h0 => decryptWith_emptyUnpad unpadZero hv hp h0⟩
  · have hall : unpadFor unpadZero s.cfg.pad (chainDec s.cfg.mode s.k s.ivr s.message) =
        some (chainDec s.cfg.mode s.k s.ivr s.message) := by rw [hp, unpadFor_none]
    exact ⟨_, decryptWith_ok unpadZero hv hl hall, deliver_delivered _ s⟩
  · have hne : chainDec s.cfg.mode s.k s.ivr s.message ≠ [] :=
      mt (chainDec_message_eq_nil s hl).mp hpos.ne'
    obtain ⟨bytes, hbytes⟩ := Option.ne_none_iff_exists'.mp (mt (unpadMessage_eq_none unpadZero _).mp hne)
    exact ⟨bytes, _, decryptWith_ok unpadZero hv hl (by rw [hp, unpadFor_pkcs5, hbytes]), hbytes,
      deliver_delivered bytes s⟩

/-! ### Everything a call that answered can have done -/

/-- Everything an ENCRYPT that answered can have done: it raised an error, or delivered the chaining of whole blocks
(44_chaining_padding.md R163). -/
theorem exec_encrypt_cases {s t : State} (h : exec .encrypt s = .next t) :
    (∃ e, e ≠ .ok ∧ t = raiseError e s) ∨
    (s.cfg.valid = true ∧ (padFor s.cfg.pad s.message).length % 8 = 0 ∧
      t = deliver (chainEnc s.cfg.mode s.k s.ivr (padFor s.cfg.pad s.message)) s) := by
  rw [exec, execEncrypt_eq] at h
  split_ifs at h with hv hl <;> obtain rfl := Host.Outcome.next.inj h
  · exact .inl ⟨_, by decide, rfl⟩
  · exact .inl ⟨_, by decide, rfl⟩
  · exact .inr ⟨by simpa using hv, not_not.mp hl, rfl⟩

/-- Everything a DECRYPT that answered can have done: it raised an error, or delivered what unpadding left of the
chaining of whole blocks (44_chaining_padding.md R166). -/
theorem exec_decrypt_cases {s t : State} (h : exec .decrypt s = .next t) :
    (∃ e, e ≠ .ok ∧ t = raiseError e s) ∨
    (s.cfg.valid = true ∧ s.inBuf.len % 8 = 0 ∧
      ∃ m, unpadFor unpadZero s.cfg.pad (chainDec s.cfg.mode s.k s.ivr s.message) = some m ∧ t = deliver m s) := by
  rw [exec, execDecrypt, decryptWith_eq] at h
  split_ifs at h with hv hl
  · exact .inl ⟨_, by decide, (Host.Outcome.next.inj h).symm⟩
  · exact .inl ⟨_, by decide, (Host.Outcome.next.inj h).symm⟩
  · split at h
    next m hm => exact .inr ⟨by simpa using hv, not_not.mp hl, m, hm, (Host.Outcome.next.inj h).symm⟩
    next => cases h

/-- An error is no `Ok`. -/
theorem not_raised_of_ok {s t : State} (hok : t.status = .ok) : ¬ ∃ e, e ≠ .ok ∧ t = raiseError e s := by
  rintro ⟨e, he, rfl⟩
  exact he hok

/-! ### The lengths of results -/

/-- Settles O49: chaining keeps the length, PAD fills the last block, and UNPAD strips the last byte's number. -/
theorem resultLengths : Obligations.ResultLengths := by
  refine ⟨fun s t h hok => ?_, fun s t h hok => ?_⟩
  · obtain ⟨-, hl, rfl⟩ := (exec_encrypt_cases h).resolve_left (not_raised_of_ok hok)
    rw [deliver_outBuf, outBufferOf_len, chainEnc_length _ _ _ _ hl]
    refine ⟨hl, fun hp => by rw [hp, padFor_none, message_length], fun hp => ?_⟩
    rw [hp, padFor_pkcs5, padMessage_length, message_length]
    omega
  · obtain ⟨-, hl, m, hm, rfl⟩ := (exec_decrypt_cases h).resolve_left (not_raised_of_ok hok)
    have hlen := chainDec_length s.cfg.mode s.k s.ivr s.message (by rwa [message_length])
    rw [message_length] at hlen
    rw [deliver_outBuf, outBufferOf_len]
    refine ⟨fun hp => ?_, fun hp => ?_⟩
    · rw [hp, unpadFor_none] at hm
      rw [← Option.some.inj hm, hlen]
    · rw [hp, unpadFor_pkcs5] at hm
      exact hlen ▸ unpadMessage_keep_length hm

/-! ### One call after the other -/

/-- Unpadding undoes padding, whatever the padding (44_chaining_padding.md R178). -/
theorem unpadFor_padFor (z : Config.UnpadZero) (pad : Padding) (m : List Byte) :
    unpadFor z pad (padFor pad m) = some m := by
  cases pad with
  | none => rfl
  | pkcs5 => exact unpadMessage_padMessage z m

/-- DECRYPT of the encryption of whole blocks delivers what unpadding leaves of them (44_chaining_padding.md R178). -/
theorem execDecrypt_encryption {s : State} {m r : List Byte} (hv : s.cfg.valid = true) (hm : m.length % 8 = 0)
    (hmsg : s.message = chainEnc s.cfg.mode s.k s.ivr m) (hr : unpadFor unpadZero s.cfg.pad m = some r) :
    exec .decrypt s = .next (deliver r s) := by
  have hl : s.inBuf.len % 8 = 0 := by rw [← message_length, hmsg, chainEnc_length _ _ _ _ hm, hm]
  exact decryptWith_ok unpadZero hv hl (by rw [hmsg, chainDec_chainEnc _ _ _ hm, hr])

/-- Without padding, ENCRYPT of the decryption of whole blocks delivers them (44_chaining_padding.md R178). -/
theorem execEncrypt_decryption {s : State} {c : List Byte} (hv : s.cfg.valid = true) (hp : s.cfg.pad = .none)
    (hc : c.length % 8 = 0) (hmsg : s.message = chainDec s.cfg.mode s.k s.ivr c) :
    exec .encrypt s = .next (deliver c s) := by
  have hpad : padFor s.cfg.pad s.message = chainDec s.cfg.mode s.k s.ivr c := by rw [hp, padFor_none, hmsg]
  have hnext := execEncrypt_ok hv (by rw [hpad, chainDec_length _ _ _ _ hc, hc])
  rwa [hpad, chainEnc_chainDec _ _ _ hc] at hnext

/-- The core after the host has loaded into `IN` what the last call delivered (20_memory.md R49). -/
def reloaded (t : State) : State := { t with inBuf := t.inBuf.load t.outBytes }

/-- `INLEN` is then what `OUTLEN` was. -/
theorem reloaded_inLen (t : State) : (reloaded t).inBuf.len = t.outBuf.len := readRange_length ..

/-- The core after reset, but constructed for ECB and PKCS5, and with the encryption of a block of zeros in `IN`. -/
def holdsEncryptedZeros : State :=
  { State.reset with
    cfg := ⟨true, .ecb, .pkcs5⟩
    inBuf := State.reset.inBuf.load (ecbEnc State.reset.k (blockBytes 0#64)) }

/-- Its message has eight bytes. -/
theorem holdsEncryptedZeros_inLen : holdsEncryptedZeros.inBuf.len = 8 :=
  chainEnc_length .ecb State.reset.k 0 (blockBytes 0#64) rfl

/-- DECRYPT there delivers the eight zeros: a last byte 0 strips nothing (44_chaining_padding.md R170, log entry 8). -/
theorem execDecrypt_holdsEncryptedZeros :
    exec .decrypt holdsEncryptedZeros = .next (deliver (blockBytes 0#64) holdsEncryptedZeros) := by
  have hkeep : unpadFor unpadZero .pkcs5 (blockBytes 0#64) = some (blockBytes 0#64) := by decide
  exact execDecrypt_encryption rfl rfl (load_readRange _ _) hkeep

/-- With PKCS5, ENCRYPT does not undo that DECRYPT, because its result is longer than its operand
(44_chaining_padding.md R174, R178). -/
theorem encrypt_not_undoing_decrypt : ∃ s t u : State, s.cfg.pad = .pkcs5 ∧ exec .decrypt s = .next t ∧
    t.status = .ok ∧ exec .encrypt { t with inBuf := t.inBuf.load t.outBytes } = .next u ∧ u.status = .ok ∧
    u.outBytes ≠ s.message := by
  have henc := execEncrypt_ok (s := reloaded (deliver (blockBytes 0#64) holdsEncryptedZeros)) rfl
    (padMessage_length_mod _)
  refine ⟨_, _, _, rfl, execDecrypt_holdsEncryptedZeros, rfl, henc, rfl, fun heq => ?_⟩
  obtain ⟨-, -, hpkcs5⟩ := resultLengths.1 _ _ henc rfl
  obtain ⟨-, -, hlonger, -⟩ := hpkcs5 rfl
  have hlen := congrArg List.length heq
  rw [State.outBytes, readRange_length, message_length, holdsEncryptedZeros_inLen] at hlen
  rw [hlen, reloaded_inLen] at hlonger
  exact absurd hlonger (by decide)

/-- Settles O50: the operand of the second call is the result of the first, and chaining and padding are undone. -/
theorem commandRoundTrip : Obligations.CommandRoundTrip := by
  refine ⟨fun s t h hok => ?_, fun s t h hok hp => ?_, encrypt_not_undoing_decrypt⟩
  · obtain ⟨hv, hl, rfl⟩ := (exec_encrypt_cases h).resolve_left (not_raised_of_ok hok)
    rw [deliver_outBytes]
    exact ⟨_, execDecrypt_encryption hv hl (message_load _ _) (unpadFor_padFor ..), rfl, deliver_outBytes _ _⟩
  · obtain ⟨hv, hl, m, hm, rfl⟩ := (exec_decrypt_cases h).resolve_left (not_raised_of_ok hok)
    rw [hp, unpadFor_none] at hm
    obtain rfl := Option.some.inj hm
    rw [← message_length] at hl
    rw [deliver_outBytes]
    exact ⟨_, execEncrypt_decryption hv hp hl (message_load _ _), rfl, deliver_outBytes _ _⟩

/-- ENCRYPT and DECRYPT leave `K`, `CFG` and `IVR` as they are, failed or not (44_chaining_padding.md R163, R166). -/
theorem exec_cipher_sameInstance {i : Instr} {s t : State} (hi : i = .encrypt ∨ i = .decrypt) (h : exec i s = .next t) :
    SameInstance s t := by
  obtain rfl | rfl := hi
  · obtain ⟨e, -, rfl⟩ | ⟨-, -, rfl⟩ := exec_encrypt_cases h
    · exact (raiseError_raised s e).inst
    · exact (deliver_delivered _ s).inst
  · obtain ⟨e, -, rfl⟩ | ⟨-, -, m, -, rfl⟩ := exec_decrypt_cases h
    · exact (raiseError_raised s e).inst
    · exact (deliver_delivered m s).inst

/-- An outcome alike to a refusal is that refusal. -/
theorem SameOutcome.refused_left {R : State → State → Prop} {r : Refusal} {o : Host.Outcome State Fault Refusal}
    (h : SameOutcome R (.refused r) o) : o = .refused r := by
  cases o with
  | next t => exact h.elim
  | fault f => exact h.elim
  | refused q => exact congrArg _ h.symm

/-- Settles O51: the call leaves `K`, `CFG` and `IVR`, and with the message these are all a later call reads. -/
theorem callsDoNotInfluenceLaterCalls : Obligations.CallsDoNotInfluenceLaterCalls := by
  intro i j s t msg hi hj ht
  obtain ⟨hk, hcfg, hivr⟩ := exec_cipher_sameInstance hi ht
  have hin : SameCipherInputs { s with inBuf := msg } { t with inBuf := msg } :=
    ⟨rfl, congrArg Cfg.valid hcfg, fun _ => hcfg, fun _ => hk, fun _ _ => hivr⟩
  have hout := exec_cipher_related hj hin (endsRelated_sameResult _ _)
  refine ⟨fun u hu => ?_, fun r hr => ?_⟩
  · rw [hu] at hout
    exact hout.next_left
  · rw [hr] at hout
    exact hout.refused_left

end Sys2Proof.Machine
end

section
/-! PROOFS. Scope: the codes of `STATUS` and the bits of `CFG`, and the errors of the commands (10_state.md R22, R24,
60_exceptions.md R200 to R207). -/

namespace Sys2Proof.Machine

/-! ### Codes and bits -/

/-- The codes 6 and 7 are produced by none (60_exceptions.md R200). -/
theorem code_lt_six (e : Status) : e.code < 6#3 := by
  cases e <;> decide

/-- The code of a mode is set for CBC (10_state.md R22). -/
theorem mode_bit_getLsbD (m : Mode) : m.bit.getLsbD 0 = true ↔ m = .cbc := by
  cases m <;> decide

/-- The code of a padding is set for PKCS5 (10_state.md R22). -/
theorem padding_bit_getLsbD (p : Padding) : p.bit.getLsbD 0 = true ↔ p = .pkcs5 := by
  cases p <;> decide

/-- Bit 0 of `CFG` is `VALID` (10_state.md R22). -/
theorem cfg_word_getLsbD_zero (c : Cfg) : c.word.getLsbD 0 = c.valid :=
  (BitVec.getLsbD_append (x := c.pad.bit ++ c.mode.bit)).trans (by simp)

/-- Bit 1 of `CFG` is the code of `MODE` (10_state.md R22). -/
theorem cfg_word_getLsbD_one (c : Cfg) : c.word.getLsbD 1 = c.mode.bit.getLsbD 0 :=
  (BitVec.getLsbD_append (x := c.pad.bit ++ c.mode.bit)).trans (BitVec.getLsbD_append (x := c.pad.bit))

/-- Bit 2 of `CFG` is the code of `PAD` (10_state.md R22). -/
theorem cfg_word_getLsbD_two (c : Cfg) : c.word.getLsbD 2 = c.pad.bit.getLsbD 0 :=
  (BitVec.getLsbD_append (x := c.pad.bit ++ c.mode.bit)).trans (BitVec.getLsbD_append (x := c.pad.bit))

/-- Settles O5: the codes are named in order and end at 5, and `CFG` is its three codes side by side. -/
theorem statusAndCfgCodes : Obligations.StatusAndCfgCodes := by
  refine ⟨rfl, rfl, rfl, rfl, rfl, rfl, fun e => ?_, fun c => ⟨cfg_word_getLsbD_zero c, ?_, ?_⟩⟩
  · have hlt := code_lt_six e
    constructor <;> bv_omega
  · rw [cfg_word_getLsbD_one, mode_bit_getLsbD]
  · rw [cfg_word_getLsbD_two, padding_bit_getLsbD]

/-! ### What an error leaves -/

/-- Settles O11: of the three ends of a step only an error's has a `STATUS` other than `Ok`. -/
theorem failedCommandChangesNothing : Obligations.FailedCommandChangesNothing := by
  intro s t h herr
  obtain ⟨e, -, rfl, -⟩ | ⟨bytes, rfl, -⟩ | ⟨mode, pad, -, -, -, rfl⟩ := step_cases h
  · exact raiseError_raised s e
  · exact absurd rfl herr
  · exact absurd rfl herr

/-! ### The `STATUS` each command ends with -/

/-- The `STATUS` of a CONSTRUCT: the key's length is tested before the IV's (60_exceptions.md R201, R202, R207). -/
theorem exec_construct_status {mode : Mode} {pad : Padding} {s t : State}
    (h : exec (.construct mode pad) s = .next t) :
    t.status =
      if s.keyBuf.len ≠ 8 then .invalidKeyLength
      else if mode = .cbc ∧ s.ivBuf.len ≠ 8 then .invalidIVLength
      else .ok := by
  rw [exec, execConstruct_eq] at h
  split_ifs at h ⊢ <;> obtain rfl := Host.Outcome.next.inj h <;> rfl

/-- Only an unpadded message can be no whole number of blocks (44_chaining_padding.md R162, 60_exceptions.md R203). -/
theorem padFor_length_mod_ne_zero_iff (pad : Padding) (m : List Byte) :
    (padFor pad m).length % 8 ≠ 0 ↔ pad = .none ∧ m.length % 8 ≠ 0 := by
  cases pad with
  | none => simp
  | pkcs5 => simp [padMessage_length_mod]

/-- The `STATUS` of an ENCRYPT: `VALID` is tested before the length (60_exceptions.md R203, R205, R207). -/
theorem exec_encrypt_status {s t : State} (h : exec .encrypt s = .next t) :
    t.status =
      if s.cfg.valid = false then .notConstructed
      else if s.cfg.pad = .none ∧ s.inBuf.len % 8 ≠ 0 then .invalidBlockLength
      else .ok := by
  simp only [exec, execEncrypt_eq, padFor_length_mod_ne_zero_iff, message_length] at h
  split_ifs at h ⊢ <;> obtain rfl := Host.Outcome.next.inj h <;> rfl

/-- The `STATUS` of a DECRYPT that answered: `VALID` is tested before the length, and the length whatever the
padding (60_exceptions.md R203, R205, R207). -/
theorem exec_decrypt_status {s t : State} (h : exec .decrypt s = .next t) :
    t.status =
      if s.cfg.valid = false then .notConstructed
      else if s.inBuf.len % 8 ≠ 0 then .invalidBlockLength
      else .ok := by
  rw [exec, execDecrypt, decryptWith_eq] at h
  split_ifs at h ⊢
  · obtain rfl := Host.Outcome.next.inj h
    rfl
  · obtain rfl := Host.Outcome.next.inj h
    rfl
  · split at h
    · obtain rfl := Host.Outcome.next.inj h
      rfl
    · cases h

/-- Settles O14, by the word in `CMD`: each command's `STATUS` is the first of its own tests that fails, and the error
of a word that is no command is no command's. -/
theorem errorsAreReportedExactlyForTheirCause : Obligations.ErrorsAreReportedExactlyForTheirCause := by
  intro s t h
  cases hd : decode s.cmd with
  | error e =>
    obtain rfl := Host.Outcome.next.inj ((step_of_decode_error hd).symm.trans h)
    simp
  | ok i =>
    rw [step_of_decode_ok hd] at h
    cases i with
    | construct mode pad =>
      rw [exec_construct_status h]
      split_ifs with hkey hiv
      · simp [hkey]
      · obtain ⟨rfl, hiv⟩ := hiv
        simp [not_not.mp hkey, hiv]
      · simpa [not_not.mp hkey] using hiv
    | encrypt =>
      rw [exec_encrypt_status h]
      split_ifs with hvalid hlen
      · simp [hvalid]
      · simp [hvalid, hlen]
      · have hpadded : s.inBuf.len % 8 ≠ 0 → s.cfg.pad ≠ .none := fun hl hp => hlen ⟨hp, hl⟩
        simpa [hvalid] using hpadded
    | decrypt =>
      rw [exec_decrypt_status h]
      split_ifs with hvalid hlen
      · simp [hvalid]
      · simp [hvalid, hlen]
      · simp [hvalid, not_not.mp hlen]

end Sys2Proof.Machine
end

section
/-! PROOFS. Scope: the cipher instance, replaced whole or not at all (70_reset_and_hazards.md R232,
41_key_schedule.md R107). -/

namespace Sys2Proof.Machine

/-- In CBC a successful CONSTRUCT leaves the IV of `IVBUF` in `IVR` (44_chaining_padding.md R161). -/
@[simp] theorem ivAfterConstruct_cbc (s : State) : ivAfterConstruct .cbc s = s.ivBlock := rfl

/-- Settles O12: of the three ends of a step an error and a delivery keep the instance, and the third installs one. -/
theorem onlyConstructChangesTheInstance : Obligations.OnlyConstructChangesTheInstance := by
  intro s t h
  obtain ⟨e, -, rfl, -⟩ | ⟨bytes, rfl, -⟩ | ⟨mode, pad, hdecode, -, -, rfl⟩ := step_cases h
  · exact .inl (raiseError_raised s e).inst
  · exact .inl (deliver_delivered bytes s).inst
  · refine .inr ⟨mode, pad, hdecode, installInstance_constructed s s.keyBlock mode pad _, fun hcbc => ?_⟩
    rw [installInstance_ivr, hcbc, ivAfterConstruct_cbc]

end Sys2Proof.Machine
end
